-- ==== Sys2Proof/Word.lean ====
section
/-! DEFINITION. The two value types of the block (spec 00 section 7): an 8-bit byte and a 16-bit word. No value is ever read as signed. -/

namespace Sys2Proof

/-- `u8`: an unsigned byte, 0 to 255 (spec 00 section 7). -/
abbrev Byte := BitVec 8

/-- `u16`: an unsigned word, 0 to 65535; every address of the block is one (spec 20 R39). -/
abbrev Word := BitVec 16

end Sys2Proof
end

