-- ==== Sys2Proof/Config.lean ====
section
/-! DEFINITION. What is fixed for this machine (spec 00 R4: "the model takes none as a free argument"), and the names of its eight addressing modes. The spec leaves no value open, so there is no opaque constant here. -/

namespace Sys2Proof

/-- The eight addressing modes (spec 40 R79: "Exactly eight modes are supported"). In this block a mode and an
instruction are the same thing, because the only operation is LDA (spec 00 section 9). -/
inductive Mode where
  | immediate
  | zeroPage
  | zeroPageX
  | absolute
  | absoluteX
  | absoluteY
  | indirectX
  | indirectY
  deriving DecidableEq, Repr

/-- The named regions of the address space (spec 20 R40). A name restricts nothing: any byte of any region may be
loaded, executed or written by the host (spec 10 R25). -/
inductive Region where
  | zeroPage
  | stackPage
  | plain
  | nmiVector
  | resetVector
  | irqVector
  deriving DecidableEq, Repr

namespace Config

/-- The memory array has 65536 bytes, all addresses populated (spec 00 R4, 10 R23). -/
def memorySize : Nat := 65536

/-- Every byte is 0x00 after `create_memory` (spec 10 R24, 70 R150). -/
def createdByte : Byte := 0x00

/-- The reset vector's low byte is at 0xFFFC, its high byte at 0xFFFD (spec 00 R4, 20 R40). -/
def resetVector : Word := 0xFFFC

/-- SP after reset (spec 10 R27: "stack_pointer to 0xFD"). -/
def spReset : Byte := 0xFD

end Config

end Sys2Proof
end

