-- ==== Sys2Proof/Syntax.lean ====
section
/-! DEFINITION. The instructions: one constructor per row of the opcode table, holding the operand bytes that follow the opcode byte (spec 30 R51, R52). -/

namespace Sys2Proof

/-- The LDA family, the whole instruction set (spec 42 R110 to R117). `b` is the operand byte of format OP_B;
`lo` and `hi` are the operand bytes of format OP_W, in the order they stand in memory. -/
inductive Instr where
  | ldaImmediate (b : Byte)
  | ldaZeroPage (b : Byte)
  | ldaZeroPageX (b : Byte)
  | ldaAbsolute (lo hi : Byte)
  | ldaAbsoluteX (lo hi : Byte)
  | ldaAbsoluteY (lo hi : Byte)
  | ldaIndirectX (b : Byte)
  | ldaIndirectY (b : Byte)
  deriving DecidableEq, Repr

/-- The addressing mode an instruction uses. -/
def Instr.mode : Instr → Mode
  | .ldaImmediate _ => .immediate
  | .ldaZeroPage _ => .zeroPage
  | .ldaZeroPageX _ => .zeroPageX
  | .ldaAbsolute _ _ => .absolute
  | .ldaAbsoluteX _ _ => .absoluteX
  | .ldaAbsoluteY _ _ => .absoluteY
  | .ldaIndirectX _ => .indirectX
  | .ldaIndirectY _ => .indirectY

/-- The operand bytes in increasing address order (spec 30 R51, R52). -/
def Instr.operands : Instr → List Byte
  | .ldaImmediate b => [b]
  | .ldaZeroPage b => [b]
  | .ldaZeroPageX b => [b]
  | .ldaAbsolute lo hi => [lo, hi]
  | .ldaAbsoluteX lo hi => [lo, hi]
  | .ldaAbsoluteY lo hi => [lo, hi]
  | .ldaIndirectX b => [b]
  | .ldaIndirectY b => [b]

/-- Length in bytes: the opcode byte and the operand bytes, 2 or 3 (spec 30 R50). -/
def Instr.length (i : Instr) : Nat := 1 + i.operands.length

end Sys2Proof
end

