-- ==== Sys2Proof/WellFormed.lean ====
section
/-! DEFINITION. What makes an instruction well-formed. Every value of an operand byte is legal (spec 30 R56), so the one thing that can be wrong is the NUMBER of operand bytes a mode is given (spec 30 R50 to R52). -/

namespace Sys2Proof

/-- Do these operand bytes have the number the mode's format takes: one in format OP_B (spec 30 R51), two in
format OP_W (spec 30 R52)? -/
def operandsFit : Mode → List Byte → Bool
  | .immediate, ops => ops.length == 1
  | .zeroPage, ops => ops.length == 1
  | .zeroPageX, ops => ops.length == 1
  | .absolute, ops => ops.length == 2
  | .absoluteX, ops => ops.length == 2
  | .absoluteY, ops => ops.length == 2
  | .indirectX, ops => ops.length == 1
  | .indirectY, ops => ops.length == 1

/-- An instruction is well-formed when its operand bytes fit its mode. Every term of `Instr` does
(Laws/Encoding.lean, `wellFormed_all`): the constructors carry exactly the bytes of the format. -/
def Instr.wellFormed (i : Instr) : Bool := operandsFit i.mode i.operands

end Sys2Proof
end

