-- ==== Sys2Proof/Decode.lean ====
section
/-! DEFINITION. Decoding, total on any bytes and rejecting by name (spec 30, 41 R92), and after it the encoder. -/

namespace Sys2Proof

/-- The opcode map (spec 30 R54). The first two values are the source's own; the other six are the standard
MOS 6502 values, taken by the spec's decision D5 (PRESUMED, log 4). -/
def opcodeTable : List (Byte × Mode) :=
  [ (0xA9, .immediate), (0xA5, .zeroPage), (0xB5, .zeroPageX), (0xAD, .absolute),
    (0xBD, .absoluteX), (0xB9, .absoluteY), (0xA1, .indirectX), (0xB1, .indirectY) ]

/-- `Decode(o)` (spec 41 R92): the mode an opcode byte selects, or none. All eight bits take part in the match
(spec 30 R50); nothing but the opcode byte is looked at. -/
def decodeOpcode (o : Byte) : Option Mode := opcodeTable.lookup o

/-- How many operand bytes follow the opcode byte (the "Operand bytes" column of spec 40 R79). -/
def Mode.operandBytes : Mode → Nat
  | .immediate => 1
  | .zeroPage => 1
  | .zeroPageX => 1
  | .absolute => 2
  | .absoluteX => 2
  | .absoluteY => 2
  | .indirectX => 1
  | .indirectY => 1

/-- Why a byte sequence is no instruction. -/
inductive DecodeError where
  /-- There is no opcode byte. Raised for the empty sequence only; a machine's fetch never meets it (safe). -/
  | noBytes
  /-- The opcode byte is none of the eight (spec 30 R56). It is the cause of the fault UnimplementedOpcode (safe). -/
  | unimplementedOpcode (opcode : Byte)
  /-- The sequence ends before the operand bytes the mode takes. A machine's fetch never meets it: memory has
  no end (spec 10 R23), and the fetch takes as many bytes as the opcode asks for (safe). -/
  | missingOperand (m : Mode)
  deriving DecidableEq, Repr

/-- The instruction a mode and its operand bytes make, with the bytes left over (spec 30 R51 to R53). -/
def takeOperands : Mode → List Byte → Option (Instr × List Byte)
  | .immediate, b :: rest => some (.ldaImmediate b, rest)
  | .zeroPage, b :: rest => some (.ldaZeroPage b, rest)
  | .zeroPageX, b :: rest => some (.ldaZeroPageX b, rest)
  | .absolute, lo :: hi :: rest => some (.ldaAbsolute lo hi, rest)
  | .absoluteX, lo :: hi :: rest => some (.ldaAbsoluteX lo hi, rest)
  | .absoluteY, lo :: hi :: rest => some (.ldaAbsoluteY lo hi, rest)
  | .indirectX, b :: rest => some (.ldaIndirectX b, rest)
  | .indirectY, b :: rest => some (.ldaIndirectY b, rest)
  | _, _ => none

/-- Decode the instruction at the head of a byte sequence (bytes in increasing address order, spec 20 R34);
answers it with the bytes after it. -/
def decode : List Byte → Except DecodeError (Instr × List Byte)
  | [] => .error .noBytes
  | o :: rest =>
    match decodeOpcode o with
    | none => .error (.unimplementedOpcode o)
    | some m =>
      match takeOperands m rest with
      | none => .error (.missingOperand m)
      | some r => .ok r

/-- Byte `k` of a number whose bit 0 is the least significant bit of the first byte. -/
def tableByte (w k : Nat) : Byte := BitVec.ofNat 8 (w / 2 ^ (8 * k))

/-- The three bytes (the longest instruction) that a word of the opcode table stands for: the first byte is
bits 7 to 0, and every bit from `nbits` on is zero. -/
def tableBytes (nbits w : Nat) : List Byte :=
  [tableByte (w % 2 ^ nbits) 0, tableByte (w % 2 ^ nbits) 1, tableByte (w % 2 ^ nbits) 2]

/-- The instruction the decoder reads from a word numbered as the opcode table numbers it; none where it refuses. -/
def decodeTableWord (nbits w : Nat) : Option Instr :=
  match decode (tableBytes nbits w) with
  | .ok (i, _) => some i
  | .error _ => none

/-- The opcode byte of a mode, read from the binary column of spec 30 R54. -/
def Mode.opcode : Mode → Byte
  | .immediate => 0b10101001
  | .zeroPage => 0b10100101
  | .zeroPageX => 0b10110101
  | .absolute => 0b10101101
  | .absoluteX => 0b10111101
  | .absoluteY => 0b10111001
  | .indirectX => 0b10100001
  | .indirectY => 0b10110001

/-- The bytes of an instruction in increasing address order: the opcode byte, then the operand bytes (spec 30
R50 to R52). -/
def encode (i : Instr) : List Byte := i.mode.opcode :: i.operands

end Sys2Proof
end

