-- ==== Sys2Proof/Machine/State.lean ====
section
/-! DEFINITION. The machine's state as plain data (spec 10: "The whole state of the block is the tuple (PC, SP, A, X, Y, P.C, P.Z, P.I, P.D, P.B, P.V, P.N, M). There is nothing else"), the reasons a step can stop, and the state after reset. -/

namespace Sys2Proof.Machine

/-- The seven independent status flags (spec 10 R17, R21; no packed status byte exists, log 10). -/
structure Flags where
  /-- P.C, carry -/
  c : Bool
  /-- P.Z, zero -/
  z : Bool
  /-- P.I, interrupt-disable -/
  i : Bool
  /-- P.D, decimal -/
  d : Bool
  /-- P.B, break -/
  b : Bool
  /-- P.V, overflow -/
  v : Bool
  /-- P.N, negative -/
  n : Bool
  deriving DecidableEq, Repr

/-- The memory array M as a list of (address, byte) pairs in the canonical form of `Memory.wf` (log 16);
an address that is not listed reads 0x00 (spec 10 R24). -/
abbrev Memory := List Host.Cell

/-- The register file (spec 10 R10, R14, R17) and the memory array (spec 10 R23). -/
structure State where
  /-- PC, the address of the opcode byte of the next instruction -/
  pc : Word
  /-- SP, the stack pointer -/
  sp : Byte
  /-- A, the accumulator -/
  a : Byte
  /-- X, the index_x register -/
  x : Byte
  /-- Y, the index_y register -/
  y : Byte
  /-- P, the seven status flags -/
  p : Flags
  /-- M, the memory array -/
  mem : Memory
  deriving DecidableEq, Repr

/-- Why a step stops with a fault. -/
inductive Fault where
  /-- UnimplementedOpcode (spec 60 R120), raised by `step` when the opcode byte is none of the eight; the only
  fault of the block. `opcode` and `faultPc` are the report of spec 60 R121 (the address is the spec's decision D6,
  log 5). `after` is the state the faulting step leaves (spec 60 R122), which `Host.Outcome.fault` has no other
  place for. Safe: the spec itself ends the run here (spec 60 R125). -/
  | unimplementedOpcode (opcode : Byte) (faultPc : Word) (after : State)
  deriving DecidableEq, Repr

/-- Why the model gives an instruction no meaning. -/
inductive Refusal where
  /-- An arm of `exec` that has no meaning yet. No arm raises it: all eight instructions are modelled. Safe. -/
  | notModelled (mnemonic : String)
  deriving DecidableEq, Repr

/-- The state right after reset over a freshly created memory: the table of spec 10 R27. PC is the word at the
reset vector, which is 0x0000 while nothing is written there (spec 70 R146). -/
def State.reset : State where
  pc := 0x0000
  sp := Config.spReset
  a := 0x00
  x := 0x00
  y := 0x00
  p := { c := false, z := false, i := false, d := false, b := false, v := false, n := false }
  mem := []

end Sys2Proof.Machine
end

