-- ==== Sys2Proof/Machine/Flags.lean ====
section
/-! DEFINITION. The flag-update logic: two combinational functions of the loaded byte (spec 41 R96). No other flag computation exists in the block. -/

namespace Sys2Proof.Machine

/-- `FlagZ(v) = (v == 0x00)`. Z is 1 when the value is zero (spec 41 R96, R97; conflict C3). -/
def flagZ (v : Byte) : Bool := v == 0x00

/-- `FlagN(v) = (v[7] == 1)` (spec 41 R96). -/
def flagN (v : Byte) : Bool := v.getLsbD 7

/-- The flags after `v` is loaded: Z and N from `v`, the other five as they were (spec 10 R18, R19). -/
def Flags.afterLoad (p : Flags) (v : Byte) : Flags := { p with z := flagZ v, n := flagN v }

end Sys2Proof.Machine
end

