-- ==== Sys2Proof/Machine/Ops.lean ====
section
/-! DEFINITION. The named operations over memory and registers, and the one fault. -/

namespace Sys2Proof.Machine

/-! ### The memory array -/

/-- What an address that is not listed reads as (spec 10 R24: memory is zero-filled when it is created). -/
def Memory.unlisted : Byte := Config.createdByte

/-- `M[n]`. -/
def Memory.byteAt : Memory → Nat → Byte
  | [], _ => Memory.unlisted
  | (a, v) :: rest, n => if a = n then v else Memory.byteAt rest n

/-- `M[n] <- v`, keeping the canonical form: storing the unlisted byte removes the entry. -/
def Memory.setByte : Memory → Nat → Byte → Memory
  | [], n, v => if v = Memory.unlisted then [] else [(n, v)]
  | (a, w) :: rest, n, v =>
    if a < n then (a, w) :: Memory.setByte rest n v
    else if a = n then (if v = Memory.unlisted then rest else (n, v) :: rest)
    else if v = Memory.unlisted then (a, w) :: rest
    else (n, v) :: (a, w) :: rest

/-- The canonical form from address `low` up: addresses strictly rising and inside the space, no entry equal
to the unlisted byte. -/
def Memory.wfFrom : Nat → Memory → Bool
  | _, [] => true
  | low, (a, v) :: rest =>
    decide (low ≤ a) && decide (a < Config.memorySize) && decide (v ≠ Memory.unlisted)
      && Memory.wfFrom (a + 1) rest

/-- The canonical form of a memory (log 16): equal memories are equal lists. -/
def Memory.wf (m : Memory) : Bool := Memory.wfFrom 0 m

/-! ### The memory interface -/

/-- `zext_16(b)` (spec 00 section 7). -/
def zext16 (b : Byte) : Word := b.setWidth 16

/-- `{hi, lo}`: the word with high byte `hi` and low byte `lo` (spec 00 section 7). -/
def wordOf (hi lo : Byte) : Word := hi ++ lo

/-- `read_byte` = `MemRead(address, 1)` (spec 20 R30): pure, never failing. -/
def readByte (m : Memory) (address : Word) : Byte := Memory.byteAt m address.toNat

/-- `read_word` = `MemRead(address, 2)` (spec 20 R31): little-endian; the high byte of the word at 0xFFFF is
read from 0x0000 (the spec's decision D3, log 3). -/
def readWord (m : Memory) (address : Word) : Word :=
  wordOf (readByte m (address + 1#16)) (readByte m address)

/-- `read_word_zero_page_wrap` = `MemReadZP(p)` (spec 20 R32): the high byte is fetched from `(p + 1) mod 256`.
The argument is a byte (decision D15, log 12). -/
def readWordZeroPageWrap (m : Memory) (p : Byte) : Word :=
  wordOf (readByte m (zext16 (p + 1#8))) (readByte m (zext16 p))

/-- `write(memory, address, bytes)` (spec 70 R151), the HOST's write: byte j goes to `(address + j) mod 65536`,
in order (the wrap is decision D10, log 8). No rule of the core uses it. -/
def writeBytes (m : Memory) (address : Word) : List Byte → Memory
  | [] => m
  | v :: rest => writeBytes (Memory.setByte m address.toNat v) (address + 1#16) rest

/-- `create_memory()` (spec 70 R150): 65536 bytes of 0x00. -/
def createMemory : Memory := []

/-- The region an address lies in (spec 20 R40). No rule of the core asks for it. -/
def regionOf (address : Word) : Region :=
  if address.toNat ≤ 0x00FF then .zeroPage
  else if address.toNat ≤ 0x01FF then .stackPage
  else if address.toNat ≤ 0xFFF9 then .plain
  else if address.toNat ≤ 0xFFFB then .nmiVector
  else if address.toNat ≤ 0xFFFD then .resetVector
  else .irqVector

/-! ### Registers -/

/-- `PC <- (PC + n) mod 65536` (spec 10 R15; the wrap at 0xFFFF is R16, decision D4, log 3). -/
def advancePc (n : Nat) (s : State) : State := { s with pc := s.pc + BitVec.ofNat 16 n }

/-- `A <- v`, then P.Z and P.N from it (spec 41 R95, R96): the load every instruction ends with. -/
def loadA (v : Byte) (s : State) : State := { s with a := v, p := s.p.afterLoad v }

/-- What an instruction of `length` bytes that loads `v` leaves (spec 41 R91): A, Z and N from `v`, PC moved past
the instruction, everything else unchanged. -/
def afterLda (length : Nat) (v : Byte) (s : State) : State := advancePc length (loadA v s)

/-! ### Taking the fault

UnimplementedOpcode is the block's only exceptional event, and it is no trap: nothing is saved, no vector is read,
no mode changes, control goes nowhere (spec 60 R125). So its entry is the end of the step, and no return exists. -/

/-- `raise UnimplementedOpcode(opcode, pc0)` at a state whose PC is `pc0` (spec 60 R120 to R122): the report is the
opcode byte and its address, and the state left has PC moved by one and nothing else changed. -/
def raiseUnimplementedOpcode (s : State) : Fault :=
  .unimplementedOpcode (readByte s.mem s.pc) s.pc (advancePc 1 s)

end Sys2Proof.Machine
end

