-- ==== Sys2Proof/Machine/Operands.lean ====
section
/-! DEFINITION. Every operand form (spec 30 R53), the page-cross detector (spec 40 R80), and the addressing-mode resolver as the spec's function of mode, PC, X, Y and memory (spec 40 R70 to R79). -/

namespace Sys2Proof.Machine

/-! ### Effective addresses -/

/-- Zero Page: `zext_16(b)` (spec 40 R72). -/
def eaZeroPage (b : Byte) : Word := zext16 b

/-- Zero Page indexed: `zext_16((b + index) mod 256)`, which never leaves the zero page (spec 40 R73). -/
def eaZeroPageIndexed (b index : Byte) : Word := zext16 (b + index)

/-- A base word plus an index, modulo 65536, the index zero-extended (spec 20 R39, 40 R88). -/
def eaIndexed (base : Word) (index : Byte) : Word := base + zext16 index

/-- (Indirect,X): the word at the zero-page pointer `(b + X) mod 256` (spec 40 R77). -/
def eaIndirectX (m : Memory) (b x : Byte) : Word := readWordZeroPageWrap m (b + x)

/-- The base of (Indirect),Y: the word at the zero-page pointer `b` (spec 40 R78). -/
def baseIndirectY (m : Memory) (b : Byte) : Word := readWordZeroPageWrap m b

/-! ### The page-cross detector -/

/-- `PageCross(l, i)` (spec 40 R80): does adding the index to the low byte of the base overflow into the next
page? The sum is exact. -/
def pageCross (l i : Byte) : Bool := decide (0x100 ≤ l.toNat + i.toNat)

/-- The low byte of a word, `w[7:0]`. -/
def lowByte (w : Word) : Byte := w.setWidth 8

/-- The high byte of a word, `w[15:8]`: its page number. -/
def highByte (w : Word) : Byte := w.extractLsb' 8 8

/-- The page-cross penalty in cycles, 0 or 1 (spec 40 R80). -/
def penaltyOf (base : Word) (index : Byte) : Nat := if pageCross (lowByte base) index then 1 else 0

/-! ### The resolver -/

/-- The four outputs of the resolver (spec 40 R70). -/
structure Resolved where
  /-- the value to load into A -/
  value : Byte
  /-- how many bytes PC advances beyond the opcode byte -/
  advance : Nat
  /-- the listed cycles, without the opcode fetch -/
  listed : Nat
  /-- the page-cross penalty, 0 or 1 -/
  penalty : Nat
  deriving DecidableEq, Repr

/-- The resolver (spec 40 R71 to R78). `pc1` is the address of the first operand byte. It is a pure function and
cannot fail (spec 40 R70, R89). -/
def resolve (mode : Mode) (m : Memory) (pc1 : Word) (x y : Byte) : Resolved :=
  let b := readByte m pc1
  let operandWord := readWord m pc1
  match mode with
  | .immediate => { value := b, advance := 1, listed := 1, penalty := 0 }
  | .zeroPage => { value := readByte m (eaZeroPage b), advance := 1, listed := 2, penalty := 0 }
  | .zeroPageX => { value := readByte m (eaZeroPageIndexed b x), advance := 1, listed := 3, penalty := 0 }
  | .absolute => { value := readByte m operandWord, advance := 2, listed := 3, penalty := 0 }
  | .absoluteX =>
    { value := readByte m (eaIndexed operandWord x), advance := 2, listed := 3,
      penalty := penaltyOf operandWord x }
  | .absoluteY =>
    { value := readByte m (eaIndexed operandWord y), advance := 2, listed := 3,
      penalty := penaltyOf operandWord y }
  | .indirectX => { value := readByte m (eaIndirectX m b x), advance := 1, listed := 5, penalty := 0 }
  | .indirectY =>
    { value := readByte m (eaIndexed (baseIndirectY m b) y), advance := 1, listed := 4,
      penalty := penaltyOf (baseIndirectY m b) y }

/-- The addresses the resolver reads, in order: operand bytes, then pointer bytes, then the data byte (spec 20 R37;
no other read is made, decision D14, log 11). -/
def resolveReads (mode : Mode) (m : Memory) (pc1 : Word) (x y : Byte) : List Word :=
  let b := readByte m pc1
  let operandWord := readWord m pc1
  match mode with
  | .immediate => [pc1]
  | .zeroPage => [pc1, eaZeroPage b]
  | .zeroPageX => [pc1, eaZeroPageIndexed b x]
  | .absolute => [pc1, pc1 + 1#16, operandWord]
  | .absoluteX => [pc1, pc1 + 1#16, eaIndexed operandWord x]
  | .absoluteY => [pc1, pc1 + 1#16, eaIndexed operandWord y]
  | .indirectX => [pc1, zext16 (b + x), zext16 (b + x + 1#8), eaIndirectX m b x]
  | .indirectY => [pc1, zext16 b, zext16 (b + 1#8), eaIndexed (baseIndirectY m b) y]

end Sys2Proof.Machine
end

