-- ==== Sys2Proof/Machine/Lda.lean ====
section
/-! DEFINITION. The LDA family: the meaning and the cycle total of each of the eight instructions (spec 42 R110 to R117). At each meaning `s` is the state before the step: PC is the address of the opcode byte, and the operand bytes are the instruction's fields. -/

namespace Sys2Proof.Machine

/-- LDA Immediate (spec 42 R110). -/
def execLdaImmediate (b : Byte) (s : State) : Host.Outcome State Fault Refusal :=
  .next (afterLda 2 b s)

/-- LDA Zero Page (spec 42 R111). -/
def execLdaZeroPage (b : Byte) (s : State) : Host.Outcome State Fault Refusal :=
  .next (afterLda 2 (readByte s.mem (eaZeroPage b)) s)

/-- LDA Zero Page,X (spec 42 R112). -/
def execLdaZeroPageX (b : Byte) (s : State) : Host.Outcome State Fault Refusal :=
  .next (afterLda 2 (readByte s.mem (eaZeroPageIndexed b s.x)) s)

/-- LDA Absolute (spec 42 R113). -/
def execLdaAbsolute (lo hi : Byte) (s : State) : Host.Outcome State Fault Refusal :=
  .next (afterLda 3 (readByte s.mem (wordOf hi lo)) s)

/-- LDA Absolute,X (spec 42 R114). -/
def execLdaAbsoluteX (lo hi : Byte) (s : State) : Host.Outcome State Fault Refusal :=
  .next (afterLda 3 (readByte s.mem (eaIndexed (wordOf hi lo) s.x)) s)

/-- LDA Absolute,Y (spec 42 R115). -/
def execLdaAbsoluteY (lo hi : Byte) (s : State) : Host.Outcome State Fault Refusal :=
  .next (afterLda 3 (readByte s.mem (eaIndexed (wordOf hi lo) s.y)) s)

/-- LDA (Indirect,X) (spec 42 R116). -/
def execLdaIndirectX (b : Byte) (s : State) : Host.Outcome State Fault Refusal :=
  .next (afterLda 2 (readByte s.mem (eaIndirectX s.mem b s.x)) s)

/-- LDA (Indirect),Y (spec 42 R117). -/
def execLdaIndirectY (b : Byte) (s : State) : Host.Outcome State Fault Refusal :=
  .next (afterLda 2 (readByte s.mem (eaIndexed (baseIndirectY s.mem b) s.y)) s)

/-- `cycles_used` of an instruction run at `s`, as each of spec 42 R110 to R117 gives it. It is an output of the
step and is stored nowhere (spec 41 R98, log 2). -/
def cyclesUsed (i : Instr) (s : State) : Nat :=
  match i with
  | .ldaImmediate _ => 2
  | .ldaZeroPage _ => 3
  | .ldaZeroPageX _ => 4
  | .ldaAbsolute _ _ => 4
  | .ldaAbsoluteX lo _ => if pageCross lo s.x then 5 else 4
  | .ldaAbsoluteY lo _ => if pageCross lo s.y then 5 else 4
  | .ldaIndirectX _ => 6
  | .ldaIndirectY b => if pageCross (readByte s.mem (zext16 b)) s.y then 6 else 5

end Sys2Proof.Machine
end

