-- ==== Sys2Proof/Machine/Fetch.lean ====
section
/-! DEFINITION. Fetching an instruction's bytes from memory at PC (spec 30 R50, 20 R34). -/

namespace Sys2Proof.Machine

/-- `n` bytes at consecutive addresses, modulo 65536, from `address` up (spec 30 R50). -/
def bytesFrom (m : Memory) (address : Word) : Nat → List Byte
  | 0 => []
  | n + 1 => readByte m address :: bytesFrom m (address + 1#16) n

/-- How many bytes a step fetches, decided by the opcode byte alone: an unimplemented opcode has no operand
bytes (spec 30 R50, R57). -/
def fetchLength (o : Byte) : Nat :=
  match decodeOpcode o with
  | none => 1
  | some m => 1 + m.operandBytes

/-- The instruction at PC, or why there is none. -/
def fetch (s : State) : Except DecodeError Instr :=
  match decode (bytesFrom s.mem s.pc (fetchLength (readByte s.mem s.pc))) with
  | .ok (i, _) => .ok i
  | .error e => .error e

/-- The instruction that a word of the opcode table stands for, placed where the next step fetches: its three
bytes (the longest instruction, the bits above `nbits` zero) at PC and the two addresses after it. The program is
the host's to load (spec 70 R145, R151; log 15). -/
def placeFetchWord (s : State) (nbits w : Nat) : State :=
  { s with mem := writeBytes s.mem s.pc (tableBytes nbits w) }

end Sys2Proof.Machine
end

