-- ==== Sys2Proof/Machine/Step.lean ====
section
/-! DEFINITION. The one step: fetch at PC, decode, run the instruction or raise the fault (spec 41 R90). -/

namespace Sys2Proof.Machine

/-- One whole instruction (spec 41 R90, R101). A fetch that gives no instruction is an unimplemented opcode byte
(Laws/Step.lean, `fetch_error`: no other error can occur), the one fault of the block (spec 60 R120). -/
def step (s : State) : Host.Outcome State Fault Refusal :=
  match fetch s with
  | .ok i => exec i s
  | .error _ => .fault (raiseUnimplementedOpcode s)

/-- `s` with the instruction that a word of the opcode table stands for stored where `step` fetches next. -/
def State.withFetchWord (s : State) (nbits w : Nat) : State := placeFetchWord s nbits w

end Sys2Proof.Machine
end

