-- ==== Sys2Proof/Machine/Execute.lean ====
section
/-! DEFINITION. `execute` in the source's five stages (spec 41 R90), with its outputs: the cycle total, the fault report and the addresses read. It is the spec's other presentation of the one step (conflict C8): `step` runs the rule of each instruction, `execute` runs the dispatcher over the resolver. That the two agree is an obligation. -/

namespace Sys2Proof.Machine

/-- The outcome of a step (spec 00 section 7): `Ok(cycles)` with the new state, or
`Fault(UnimplementedOpcode, opcode, pc)` with the new state. The cycle total and the report are outputs, not state
(spec 41 R98, 60 R121); the fault carries no cycle count (spec 60 R123, decision D8; log 2). -/
inductive StepResult where
  | ok (cycles : Nat) (after : State)
  | fault (opcode : Byte) (faultPc : Word) (after : State)
  deriving DecidableEq, Repr

/-- `execute(cpu, memory)` (spec 41 R90, 70 R153). -/
def execute (s : State) : StepResult :=
  let opcode := readByte s.mem s.pc
  let fetched := advancePc 1 s
  match decodeOpcode opcode with
  | none => .fault opcode s.pc fetched
  | some mode =>
    let r := resolve mode s.mem fetched.pc s.x s.y
    .ok (1 + r.listed + r.penalty) (loadA r.value (advancePc r.advance fetched))

/-- The addresses one step reads, in order (spec 20 R37): the opcode byte, then what the resolver reads; a faulting
step reads the opcode byte only (spec 20 R38, 30 R57). -/
def stepReads (s : State) : List Word :=
  match decodeOpcode (readByte s.mem s.pc) with
  | none => [s.pc]
  | some mode => s.pc :: resolveReads mode s.mem (s.pc + 1#16) s.x s.y

end Sys2Proof.Machine
end

