-- ==== Sys2Proof/Machine/HostOps.lean ====
section
/-! DEFINITION. The host's operations on the machine beside `write` and `create_memory`, which stand in Ops.lean (spec 70 R150 to R155). They happen between steps, never inside one (spec 70 R156). -/

namespace Sys2Proof.Machine

/-- What `snapshot` returns (spec 70 R154), and what state_preset takes (spec 70 R155): PC, SP, A, X, Y and the
seven flags. -/
structure Snapshot where
  pc : Word
  sp : Byte
  a : Byte
  x : Byte
  y : Byte
  p : Flags
  deriving DecidableEq, Repr

/-- `initialize(memory)`, the reset event (spec 70 R140), under a name of ours because `initialize` is a command of
Lean's: a function of the memory alone. It may be applied again between steps (spec 70 R142, decision D12, log 9). -/
def resetFrom (m : Memory) : State where
  pc := readWord m Config.resetVector
  sp := Config.spReset
  a := 0x00
  x := 0x00
  y := 0x00
  p := { c := false, z := false, i := false, d := false, b := false, v := false, n := false }
  mem := m

/-- `snapshot(cpu)` (spec 70 R154): read-only. -/
def snapshot (s : State) : Snapshot where
  pc := s.pc
  sp := s.sp
  a := s.a
  x := s.x
  y := s.y
  p := s.p

/-- state_preset (spec 70 R155, decision D9, log 7): load the register file, leave memory alone. -/
def preset (r : Snapshot) (s : State) : State where
  pc := r.pc
  sp := r.sp
  a := r.a
  x := r.x
  y := r.y
  p := r.p
  mem := s.mem

/-- `write(memory, address, bytes)` by the host on the machine's memory (spec 70 R151): it changes memory only. -/
def hostWrite (address : Word) (bytes : List Byte) (s : State) : State :=
  { s with mem := writeBytes s.mem address bytes }

end Sys2Proof.Machine
end

