-- ==== Sys2Proof/Machine/Session.lean ====
section
/-! DEFINITION. A session as the host drives it (spec 70 section 3, 60 R125): one memory, then one register file over it, then a run of steps that the first fault ends. "Faulted" is a property of the run, kept here and not in the machine's state (spec 60 R125: the block keeps no fault latch). -/

namespace Sys2Proof.Machine

/-- What lies before the host. -/
inductive Session where
  /-- `create_memory` has been done; no register file exists yet (spec 70 R150). -/
  | created (m : Memory)
  /-- The core is ready to fetch (spec 70 R143). -/
  | running (s : State)
  /-- The run has ended with a fault that left this state (spec 60 R122, R125). -/
  | faulted (s : State)
  deriving DecidableEq, Repr

/-- The operations of the boundary contract that follow `create_memory` (spec 70 R151 to R155). -/
inductive HostOp where
  | write (address : Word) (bytes : List Byte)
  | reset
  | execute
  | snapshot
  | preset (r : Snapshot)
  deriving DecidableEq, Repr

/-- What an operation answers: the ports of spec 00 R3. -/
inductive HostAnswer where
  | done
  | cycles (n : Nat)
  | fault (opcode : Byte) (faultPc : Word)
  | registers (r : Snapshot)
  deriving DecidableEq, Repr

/-- Why an operation has no meaning. -/
inductive HostRefusal where
  /-- There is no register file before the first reset (spec 70 R150, 10 R28; log 14). Safe. -/
  | noRegisterFile
  /-- The spec gives no meaning to a step issued after a fault in the same run (spec 60 R125, decision D7, U4; log
  6). Safe. -/
  | runEnded
  deriving DecidableEq, Repr

/-- The memory of a session. -/
def Session.mem : Session → Memory
  | .created m => m
  | .running s => s.mem
  | .faulted s => s.mem

/-- The start of a session: a zero-filled memory (spec 70 R150). -/
def newSession : Session := .created createMemory

/-- The step of a session: the outcome goes to the host, and a fault ends the run (spec 60 R125). -/
def afterExecute : StepResult → HostAnswer × Session
  | .ok n t => (.cycles n, .running t)
  | .fault opcode faultPc t => (.fault opcode faultPc, .faulted t)

/-- One operation of the host on a session. Reset and state_preset begin a new run (spec 60 R125); a write or a
snapshot after a fault leaves the run ended. -/
def hostStep : HostOp → Session → Except HostRefusal (HostAnswer × Session)
  | .write address bytes, .created m => .ok (.done, .created (writeBytes m address bytes))
  | .write address bytes, .running s => .ok (.done, .running (hostWrite address bytes s))
  | .write address bytes, .faulted s => .ok (.done, .faulted (hostWrite address bytes s))
  | .reset, σ => .ok (.done, .running (resetFrom σ.mem))
  | .execute, .created _ => .error .noRegisterFile
  | .execute, .running s => .ok (afterExecute (execute s))
  | .execute, .faulted _ => .error .runEnded
  | .snapshot, .created _ => .error .noRegisterFile
  | .snapshot, .running s => .ok (.registers (snapshot s), .running s)
  | .snapshot, .faulted s => .ok (.registers (snapshot s), .faulted s)
  | .preset _, .created _ => .error .noRegisterFile
  | .preset r, .running s => .ok (.done, .running (preset r s))
  | .preset r, .faulted s => .ok (.done, .running (preset r s))

/-- A sequence of operations, stopping at the first one that has no meaning. -/
def hostRun : List HostOp → Session → Except HostRefusal Session
  | [], σ => .ok σ
  | op :: ops, σ =>
    match hostStep op σ with
    | .error e => .error e
    | .ok (_, σ') => hostRun ops σ'

end Sys2Proof.Machine
end

