-- ==== Sys2Proof/Safety.lean ====
section
/-! DEFINITION. The terms the claims are stated in: memory at an offset from PC, what a load leaves and what it leaves alone, the invariants, and the memory a sequence of host operations should give. -/

namespace Sys2Proof.Machine

/-- `M[(PC + k) mod 65536]`. -/
def codeByte (s : State) (k : Nat) : Byte := Memory.byteAt s.mem ((s.pc.toNat + k) % 65536)

/-- `M[n mod 65536]`. -/
def byteOf (s : State) (n : Nat) : Byte := Memory.byteAt s.mem (n % 65536)

/-- The little-endian word at the zero-page pointer `p mod 256`, its high byte from the next zero-page address
modulo 256 (spec 20 R32), as a number. -/
def pointerOf (s : State) (p : Nat) : Nat :=
  (Memory.byteAt s.mem (p % 256)).toNat + 256 * (Memory.byteAt s.mem ((p + 1) % 256)).toNat

/-- `t` has the registers no step writes as `s` has them (spec 10 R12, R13, R19): X, Y, SP and five flags. -/
structure KeepsInertRegisters (s t : State) : Prop where
  x : t.x = s.x
  y : t.y = s.y
  sp : t.sp = s.sp
  c : t.p.c = s.p.c
  i : t.p.i = s.p.i
  d : t.p.d = s.p.d
  b : t.p.b = s.p.b
  v : t.p.v = s.p.v

/-- Every byte of memory reads in `t` as in `s`, and the memory is the same data. -/
structure KeepsMemory (s t : State) : Prop where
  data : t.mem = s.mem
  bytes : ∀ n : Nat, Memory.byteAt t.mem n = Memory.byteAt s.mem n

/-- `P.Z == (A == 0)` and `P.N == (A[7] == 1)` (spec 10 R18). -/
structure FlagsFromA (t : State) : Prop where
  z : t.p.z = true ↔ t.a.toNat = 0
  n : t.p.n = true ↔ 0x80 ≤ t.a.toNat

/-- `t` is `s` after an instruction of `length` bytes that loads `v`: A, Z, N and PC as spec 41 R90 says, and the
frame of spec 41 R91. These clauses fix every field of `t`. -/
structure Loaded (s t : State) (v : Byte) (length : Nat) : Prop where
  a : t.a = v
  flags : FlagsFromA t
  pc : t.pc.toNat = (s.pc.toNat + length) % 65536
  inert : KeepsInertRegisters s t
  memory : KeepsMemory s t

/-- `t` is `s` after a faulting step: only PC moved, by one (spec 60 R122). -/
structure OnlyPcMoved (s t : State) : Prop where
  pc : t.pc.toNat = (s.pc.toNat + 1) % 65536
  a : t.a = s.a
  z : t.p.z = s.p.z
  n : t.p.n = s.p.n
  inert : KeepsInertRegisters s t
  memory : KeepsMemory s t

/-- The machine's invariant: memory is in its canonical form, and Z and N are not both set (spec 41 R96: "Z and N can
never both be 1 after a step"; they are not at reset either). -/
def Inv (s : State) : Prop := Memory.wf s.mem = true ∧ ¬(s.p.z = true ∧ s.p.n = true)

/-- The two states differ at most in A, SP and the flags. -/
structure SameInputs (s s' : State) : Prop where
  pc : s'.pc = s.pc
  x : s'.x = s.x
  y : s'.y = s.y
  mem : s'.mem = s.mem

/-- The two states have the same registers and flags. -/
def SameRegisters (s s' : State) : Prop := snapshot s' = snapshot s

/-- A memory as the host thinks of it: a byte for every address. -/
abbrev ByteMap := Word → Byte

/-- What a host write should leave: byte j at `(address + j) mod 65536`, a later byte winning (spec 70 R151). -/
def overlay (f : ByteMap) (address : Word) : List Byte → ByteMap
  | [] => f
  | v :: rest => overlay (fun n => if n = address then v else f n) (address + 1#16) rest

/-- The bytes the host expects after a sequence of its operations: the latest write to each, or what `f` says where
none wrote. Only `write` counts (spec 20 R42, 10 R24). -/
def expectedBytes (f : ByteMap) : List HostOp → ByteMap
  | [] => f
  | .write address bytes :: ops => expectedBytes (overlay f address bytes) ops
  | .reset :: ops => expectedBytes f ops
  | .execute :: ops => expectedBytes f ops
  | .snapshot :: ops => expectedBytes f ops
  | .preset _ :: ops => expectedBytes f ops

/-- Is the operation a state_preset? -/
def HostOp.isPreset : HostOp → Bool
  | .preset _ => true
  | .write _ _ => false
  | .reset => false
  | .execute => false
  | .snapshot => false

/-- Does the operation begin a new run (spec 60 R125)? -/
def HostOp.beginsRun : HostOp → Bool
  | .preset _ => true
  | .reset => true
  | .write _ _ => false
  | .execute => false
  | .snapshot => false

/-- The cycle total of a mode when no page is crossed (spec 40 R86). -/
def totalWithoutCrossing : Mode → Nat
  | .immediate => 2
  | .zeroPage => 3
  | .zeroPageX => 4
  | .absolute => 4
  | .absoluteX => 4
  | .absoluteY => 4
  | .indirectX => 6
  | .indirectY => 5

/-- How many bytes a successful step reads (spec 20 R38). -/
def readCount : Mode → Nat
  | .immediate => 2
  | .zeroPage => 3
  | .zeroPageX => 3
  | .absolute => 4
  | .absoluteX => 4
  | .absoluteY => 4
  | .indirectX => 5
  | .indirectY => 5

/-- The mode that bits 4 to 2 of an opcode byte of the family select (spec 30 R55). -/
def modeOfBits : Nat → Option Mode
  | 0 => some .indirectX
  | 1 => some .zeroPage
  | 2 => some .immediate
  | 3 => some .absolute
  | 4 => some .indirectY
  | 5 => some .zeroPageX
  | 6 => some .absoluteY
  | 7 => some .absoluteX
  | _ => none

end Sys2Proof.Machine
end

