-- ==== Sys2Proof/Certificates/Slice0/Obligations.lean ====
section
/-! DEFINITION. The statements for the provers. Sums and addresses are written as numbers, as the spec's pseudocode has them, so that a wrong width or a wrong wrap of the model makes a statement false. "The spec's decision D<n>" marks a clause that the spec itself decided where its source is silent. -/

open Sys2Proof Sys2Proof.Machine

/-! ### The eight instructions: result, frame, cycles, reads, and where they run

Each says, for EVERY state and operands, that `exec` answers a next state, which one (`Loaded` fixes every field of
it), what the resolver gives at any address holding those operand bytes, and that a step at a PC where the bytes stand
runs exactly it. The wrap of PC and of the
operand addresses at the top of memory is the spec's decision D4 (log 3), the list of reads its decision D14 (log 11). -/

/-- Derived from spec 40 R71, 42 R110, 41 R90, R91 and 20 R37. The opcode byte 0xA9 is the source's own (30 R54). The
wrap at 0xFFFF is D4 (log 3), the list of reads D14 (log 11). -/
def Obligations.LdaImmediateLoadsItsOperand : Prop :=
  ∀ (s : State) (b : Byte), ∃ t,
    exec (.ldaImmediate b) s = .next t ∧ Loaded s t b 2 ∧ cyclesUsed (.ldaImmediate b) s = 2 ∧
    (∀ pc1 : Word, Memory.byteAt s.mem pc1.toNat = b →
      resolve .immediate s.mem pc1 s.x s.y = { value := b, advance := 1, listed := 1, penalty := 0 }) ∧
    (codeByte s 0 = 0xA9 → codeByte s 1 = b →
      step s = .next t ∧ execute s = .ok 2 t ∧
      (stepReads s).map BitVec.toNat = [s.pc.toNat, (s.pc.toNat + 1) % 65536])

/-- Derived from spec 40 R72, 42 R111, 41 R90, R91 and 20 R37. The opcode byte 0xA5 is the source's own (30 R54). The
wrap at 0xFFFF is D4 (log 3), the list of reads D14 (log 11). -/
def Obligations.LdaZeroPageLoadsFromZeroPage : Prop :=
  ∀ (s : State) (b : Byte), ∃ t,
    exec (.ldaZeroPage b) s = .next t ∧ Loaded s t (Memory.byteAt s.mem b.toNat) 2 ∧
    cyclesUsed (.ldaZeroPage b) s = 3 ∧
    (∀ pc1 : Word, Memory.byteAt s.mem pc1.toNat = b →
      resolve .zeroPage s.mem pc1 s.x s.y =
        { value := Memory.byteAt s.mem b.toNat, advance := 1, listed := 2, penalty := 0 }) ∧
    (codeByte s 0 = 0xA5 → codeByte s 1 = b →
      step s = .next t ∧ execute s = .ok 3 t ∧
      (stepReads s).map BitVec.toNat = [s.pc.toNat, (s.pc.toNat + 1) % 65536, b.toNat])

/-- Derived from spec 40 R73, 42 R112, 41 R90, R91 and 20 R37. The opcode byte is left to the decoder: its value is
the spec's decision D5 (log 4). The wrap at 0xFFFF is D4 (log 3), the list of reads D14 (log 11). -/
def Obligations.LdaZeroPageXWrapsInZeroPage : Prop :=
  ∀ (s : State) (b : Byte), ∃ t,
    exec (.ldaZeroPageX b) s = .next t ∧
    Loaded s t (Memory.byteAt s.mem ((b.toNat + s.x.toNat) % 256)) 2 ∧
    cyclesUsed (.ldaZeroPageX b) s = 4 ∧
    (∀ pc1 : Word, Memory.byteAt s.mem pc1.toNat = b →
      resolve .zeroPageX s.mem pc1 s.x s.y =
        { value := Memory.byteAt s.mem ((b.toNat + s.x.toNat) % 256), advance := 1, listed := 3, penalty := 0 }) ∧
    (decodeOpcode (codeByte s 0) = some .zeroPageX → codeByte s 1 = b →
      step s = .next t ∧ execute s = .ok 4 t ∧
      (stepReads s).map BitVec.toNat =
        [s.pc.toNat, (s.pc.toNat + 1) % 65536, (b.toNat + s.x.toNat) % 256])

/-- Derived from spec 40 R74, 42 R113, 41 R90, R91 and 20 R37. The opcode byte is left to the decoder (D5, log 4).
The wrap at 0xFFFF is D4 (log 3), the list of reads D14 (log 11). -/
def Obligations.LdaAbsoluteLoadsFromItsAddress : Prop :=
  ∀ (s : State) (lo hi : Byte), ∃ t,
    exec (.ldaAbsolute lo hi) s = .next t ∧
    Loaded s t (Memory.byteAt s.mem (256 * hi.toNat + lo.toNat)) 3 ∧
    cyclesUsed (.ldaAbsolute lo hi) s = 4 ∧
    (∀ pc1 : Word, Memory.byteAt s.mem pc1.toNat = lo → Memory.byteAt s.mem ((pc1.toNat + 1) % 65536) = hi →
      resolve .absolute s.mem pc1 s.x s.y =
        { value := Memory.byteAt s.mem (256 * hi.toNat + lo.toNat), advance := 2, listed := 3, penalty := 0 }) ∧
    (decodeOpcode (codeByte s 0) = some .absolute → codeByte s 1 = lo → codeByte s 2 = hi →
      step s = .next t ∧ execute s = .ok 4 t ∧
      (stepReads s).map BitVec.toNat =
        [s.pc.toNat, (s.pc.toNat + 1) % 65536, (s.pc.toNat + 2) % 65536, 256 * hi.toNat + lo.toNat])

/-- Derived from spec 40 R75, 42 R114, 41 R90, R91 and 20 R37. The opcode byte is left to the decoder (D5, log 4).
The wrap at 0xFFFF is D4 (log 3), the list of reads D14 (log 11). -/
def Obligations.LdaAbsoluteXAddsXAndCountsCrossing : Prop :=
  ∀ (s : State) (lo hi : Byte), ∃ t,
    exec (.ldaAbsoluteX lo hi) s = .next t ∧
    Loaded s t (byteOf s (256 * hi.toNat + lo.toNat + s.x.toNat)) 3 ∧
    cyclesUsed (.ldaAbsoluteX lo hi) s = (if 0x100 ≤ lo.toNat + s.x.toNat then 5 else 4) ∧
    (∀ pc1 : Word, Memory.byteAt s.mem pc1.toNat = lo → Memory.byteAt s.mem ((pc1.toNat + 1) % 65536) = hi →
      resolve .absoluteX s.mem pc1 s.x s.y =
        { value := byteOf s (256 * hi.toNat + lo.toNat + s.x.toNat), advance := 2, listed := 3,
          penalty := if 0x100 ≤ lo.toNat + s.x.toNat then 1 else 0 }) ∧
    (decodeOpcode (codeByte s 0) = some .absoluteX → codeByte s 1 = lo → codeByte s 2 = hi →
      step s = .next t ∧ execute s = .ok (if 0x100 ≤ lo.toNat + s.x.toNat then 5 else 4) t ∧
      (stepReads s).map BitVec.toNat =
        [s.pc.toNat, (s.pc.toNat + 1) % 65536, (s.pc.toNat + 2) % 65536,
          (256 * hi.toNat + lo.toNat + s.x.toNat) % 65536])

/-- Derived from spec 40 R76, 42 R115, 41 R90, R91 and 20 R37. The opcode byte is left to the decoder (D5, log 4).
The wrap at 0xFFFF is D4 (log 3), the list of reads D14 (log 11). -/
def Obligations.LdaAbsoluteYAddsYAndCountsCrossing : Prop :=
  ∀ (s : State) (lo hi : Byte), ∃ t,
    exec (.ldaAbsoluteY lo hi) s = .next t ∧
    Loaded s t (byteOf s (256 * hi.toNat + lo.toNat + s.y.toNat)) 3 ∧
    cyclesUsed (.ldaAbsoluteY lo hi) s = (if 0x100 ≤ lo.toNat + s.y.toNat then 5 else 4) ∧
    (∀ pc1 : Word, Memory.byteAt s.mem pc1.toNat = lo → Memory.byteAt s.mem ((pc1.toNat + 1) % 65536) = hi →
      resolve .absoluteY s.mem pc1 s.x s.y =
        { value := byteOf s (256 * hi.toNat + lo.toNat + s.y.toNat), advance := 2, listed := 3,
          penalty := if 0x100 ≤ lo.toNat + s.y.toNat then 1 else 0 }) ∧
    (decodeOpcode (codeByte s 0) = some .absoluteY → codeByte s 1 = lo → codeByte s 2 = hi →
      step s = .next t ∧ execute s = .ok (if 0x100 ≤ lo.toNat + s.y.toNat then 5 else 4) t ∧
      (stepReads s).map BitVec.toNat =
        [s.pc.toNat, (s.pc.toNat + 1) % 65536, (s.pc.toNat + 2) % 65536,
          (256 * hi.toNat + lo.toNat + s.y.toNat) % 65536])

/-- Derived from spec 40 R77, 42 R116, 41 R90, R91 and 20 R37. The opcode byte is left to the decoder (D5, log 4).
The wrap at 0xFFFF is D4 (log 3), the list of reads D14 (log 11). -/
def Obligations.LdaIndirectXGoesThroughWrappedPointer : Prop :=
  ∀ (s : State) (b : Byte), ∃ t,
    exec (.ldaIndirectX b) s = .next t ∧
    Loaded s t (Memory.byteAt s.mem (pointerOf s (b.toNat + s.x.toNat))) 2 ∧
    cyclesUsed (.ldaIndirectX b) s = 6 ∧
    (∀ pc1 : Word, Memory.byteAt s.mem pc1.toNat = b →
      resolve .indirectX s.mem pc1 s.x s.y =
        { value := Memory.byteAt s.mem (pointerOf s (b.toNat + s.x.toNat)), advance := 1, listed := 5,
          penalty := 0 }) ∧
    (decodeOpcode (codeByte s 0) = some .indirectX → codeByte s 1 = b →
      step s = .next t ∧ execute s = .ok 6 t ∧
      (stepReads s).map BitVec.toNat =
        [s.pc.toNat, (s.pc.toNat + 1) % 65536, (b.toNat + s.x.toNat) % 256, (b.toNat + s.x.toNat + 1) % 256,
          pointerOf s (b.toNat + s.x.toNat)])

/-- Derived from spec 40 R78, 42 R117, 41 R90, R91 and 20 R37. The opcode byte is left to the decoder (D5, log 4).
The wrap at 0xFFFF is D4 (log 3), the list of reads D14 (log 11). -/
def Obligations.LdaIndirectYAddsYToThePointedWord : Prop :=
  ∀ (s : State) (b : Byte), ∃ t,
    exec (.ldaIndirectY b) s = .next t ∧
    Loaded s t (byteOf s (pointerOf s b.toNat + s.y.toNat)) 2 ∧
    cyclesUsed (.ldaIndirectY b) s =
      (if 0x100 ≤ (Memory.byteAt s.mem b.toNat).toNat + s.y.toNat then 6 else 5) ∧
    (∀ pc1 : Word, Memory.byteAt s.mem pc1.toNat = b →
      resolve .indirectY s.mem pc1 s.x s.y =
        { value := byteOf s (pointerOf s b.toNat + s.y.toNat), advance := 1, listed := 4,
          penalty := if 0x100 ≤ (Memory.byteAt s.mem b.toNat).toNat + s.y.toNat then 1 else 0 }) ∧
    (decodeOpcode (codeByte s 0) = some .indirectY → codeByte s 1 = b →
      step s = .next t ∧
      execute s = .ok (if 0x100 ≤ (Memory.byteAt s.mem b.toNat).toNat + s.y.toNat then 6 else 5) t ∧
      (stepReads s).map BitVec.toNat =
        [s.pc.toNat, (s.pc.toNat + 1) % 65536, b.toNat, (b.toNat + 1) % 256,
          (pointerOf s b.toNat + s.y.toNat) % 65536])

/-! ### The step -/

/-- The bytes at PC decode to an instruction: the step is that instruction, at that state, and nothing else is
added around it (the meanings move PC themselves). -/
def Obligations.StepRunsTheDecodedInstruction : Prop :=
  ∀ (s : State) (i : Instr) (rest : List Byte),
    decode [codeByte s 0, codeByte s 1, codeByte s 2] = .ok (i, rest) →
      i.wellFormed = true ∧ fetch s = .ok i ∧ step s = exec i s

/-- Spec 41 R90: the step, told by instruction, is the source's five stages over the resolver, in both outcomes. The
address the fault reports is the spec's decision D6 (log 5), the wrap of PC its decision D4 (log 3). -/
def Obligations.StepIsTheFiveStageExecute : Prop :=
  ∀ s : State,
    (decodeOpcode (codeByte s 0) = none → ∃ t,
      step s = .fault (.unimplementedOpcode (codeByte s 0) s.pc t) ∧
      execute s = .fault (codeByte s 0) s.pc t ∧ OnlyPcMoved s t) ∧
    (∀ m, decodeOpcode (codeByte s 0) = some m → ∃ t,
      step s = .next t ∧
      execute s = .ok (1 + (resolve m s.mem (s.pc + 1#16) s.x s.y).listed
        + (resolve m s.mem (s.pc + 1#16) s.x s.y).penalty) t ∧
      Loaded s t (resolve m s.mem (s.pc + 1#16) s.x s.y).value
        (1 + (resolve m s.mem (s.pc + 1#16) s.x s.y).advance))

/-- Spec 10 R18, 41 R96: the flag functions, and what every successful step leaves in Z and N; they are never both
set. -/
def Obligations.EverySuccessfulStepSetsZAndNFromA : Prop :=
  (∀ v : Byte, (flagZ v = true ↔ v.toNat = 0) ∧ (flagN v = true ↔ 0x80 ≤ v.toNat)) ∧
  ∀ s t : State, step s = .next t →
    FlagsFromA t ∧ ¬(t.p.z = true ∧ t.p.n = true) ∧
    t.p.c = s.p.c ∧ t.p.i = s.p.i ∧ t.p.d = s.p.d ∧ t.p.b = s.p.b ∧ t.p.v = s.p.v

/-- Spec 10 R19: no step changes C, I, D, B or V, and a faulting step changes no flag at all. -/
def Obligations.NoStepChangesTheFiveInertFlags : Prop :=
  ∀ s : State,
    (∀ t, step s = .next t →
      t.p.c = s.p.c ∧ t.p.i = s.p.i ∧ t.p.d = s.p.d ∧ t.p.b = s.p.b ∧ t.p.v = s.p.v) ∧
    (∀ opcode faultPc t, step s = .fault (.unimplementedOpcode opcode faultPc t) → t.p = s.p)

/-- Spec 10 R15: PC after a step is the old PC plus the instruction's length, 2 or 3, or plus 1 where it faults,
modulo 65536 (the wrap is the spec's decision D4, log 3). -/
def Obligations.PcAdvancesByTheInstructionLength : Prop :=
  ∀ s : State,
    (∀ t, step s = .next t → ∃ i, fetch s = .ok i ∧ (i.length = 2 ∨ i.length = 3) ∧
      t.pc.toNat = (s.pc.toNat + i.length) % 65536) ∧
    (∀ opcode faultPc t, step s = .fault (.unimplementedOpcode opcode faultPc t) →
      t.pc.toNat = (s.pc.toNat + 1) % 65536)

/-- Spec 10 R11, 41 R91: the old A, SP and the flags are inputs of no step. Two states that differ only in them take
the same outcome, and load the same byte. -/
def Obligations.StepIgnoresOldAccumulatorStackPointerAndFlags : Prop :=
  ∀ s s' : State, SameInputs s s' →
    (∀ t, step s = .next t → ∃ t', step s' = .next t' ∧
      t'.pc = t.pc ∧ t'.a = t.a ∧ t'.p.z = t.p.z ∧ t'.p.n = t.p.n ∧ SameInputs t t') ∧
    (∀ opcode faultPc t, step s = .fault (.unimplementedOpcode opcode faultPc t) → ∃ t',
      step s' = .fault (.unimplementedOpcode opcode faultPc t') ∧ SameInputs t t' ∧ t'.a = s'.a ∧ t'.p = s'.p)

/-- The machine's invariant: every step keeps it, the state a faulting step leaves included. -/
def Obligations.EveryStepKeepsTheInvariant : Prop :=
  ∀ s : State, Inv s →
    (∀ t, step s = .next t → Inv t) ∧
    (∀ opcode faultPc t, step s = .fault (.unimplementedOpcode opcode faultPc t) → Inv t)

/-- The invariant holds right after reset. -/
def Obligations.ResetMeetsTheInvariant : Prop := Inv State.reset

/-! ### The fault -/

/-- Spec 60 R120: a step faults exactly when the opcode byte is none of the eight, 248 of the 256 values; the fault is
UnimplementedOpcode, nothing but the opcode byte has been read, and no step ends any other way. -/
def Obligations.OnlyAnUnimplementedOpcodeFaults : Prop :=
  (∀ s : State, ((∃ f, step s = .fault f) ↔ decodeOpcode (codeByte s 0) = none) ∧
    (decodeOpcode (codeByte s 0) = none →
      (∃ faultPc t, step s = .fault (.unimplementedOpcode (codeByte s 0) faultPc t)) ∧ stepReads s = [s.pc]) ∧
    (∀ r, step s ≠ .refused r)) ∧
  ((List.range 256).filter fun n => (decodeOpcode (BitVec.ofNat 8 n)).isNone).length = 248

/-- Spec 60 R122: the state after a faulting step. -/
def Obligations.FaultingStepMovesOnlyPc : Prop :=
  ∀ (s : State) (opcode : Byte) (faultPc : Word) (t : State),
    step s = .fault (.unimplementedOpcode opcode faultPc t) → OnlyPcMoved s t

/-- Spec 60 R121: the report is the opcode byte and the address it was fetched from (that address is the spec's
decision D6, log 5), and the PC left is the address plus one. -/
def Obligations.FaultReportsOpcodeAndItsAddress : Prop :=
  ∀ (s : State) (opcode : Byte) (faultPc : Word) (t : State),
    step s = .fault (.unimplementedOpcode opcode faultPc t) →
      opcode = codeByte s 0 ∧ faultPc = s.pc ∧ t.pc.toNat = (faultPc.toNat + 1) % 65536

/-! ### Encoding -/

/-- Decode and encode agree: every bit of every operand of every instruction survives the round trip, whatever bytes
follow. -/
def Obligations.DecodeOfEncodeIsTheInstruction : Prop :=
  ∀ (i : Instr) (rest : List Byte), i.wellFormed = true → decode (encode i ++ rest) = .ok (i, rest)

/-- The other direction: what decodes was spelled by the encoder, so no two byte sequences mean one instruction. -/
def Obligations.WhatDecodesIsAnEncoding : Prop :=
  ∀ (bytes rest : List Byte) (i : Instr), decode bytes = .ok (i, rest) → bytes = encode i ++ rest

/-- Spec 30 R50, R56, R57: the opcode byte alone decides. None of the eight: refused by name whatever follows. One of
the eight: every value of the operand bytes is legal, so decoding fails only where bytes are missing. That failure is
the model's own decoder convention, which no rule gives and no fetch meets (log 13). The last clause is spec 30 R55,
an inference of the spec from the table of R54 (six of whose values are its decision D5, log 4): the two-stage
decoder and the flat match decide the same. -/
def Obligations.OpcodeByteAloneDecides : Prop :=
  ∀ (o : Byte) (rest : List Byte),
    (decodeOpcode o = none → decode (o :: rest) = .error (.unimplementedOpcode o)) ∧
    (∀ m, decodeOpcode o = some m → m.operandBytes ≤ rest.length →
      ∃ i, decode (o :: rest) = .ok (i, rest.drop m.operandBytes) ∧ i.mode = m ∧
        i.operands = rest.take m.operandBytes) ∧
    (∀ m, decodeOpcode o = some m → rest.length < m.operandBytes → decode (o :: rest) = .error (.missingOperand m)) ∧
    decodeOpcode o = if o &&& 0xE3#8 = 0xA1#8 then modeOfBits (o.toNat / 4 % 8) else none

/-- Words written out from spec 30 R51, R52 and R54: the instructions they stand for. The opcode bytes 0xA9 and 0xA5
are the source's own; 0xBD and 0xB1 are the MOS 6502 values, the spec's decision D5 (PRESUMED, log 4). -/
def Obligations.WordsOfTheOpcodeMapDecode : Prop :=
  decode [0b10101001, 0x45] = .ok (.ldaImmediate 0x45, []) ∧
  decode [0b10100101, 0x00] = .ok (.ldaZeroPage 0x00, []) ∧
  decode [0b10111101, 0xFF, 0x20] = .ok (.ldaAbsoluteX 0xFF 0x20, []) ∧
  decode [0b10110001, 0x44, 0xEA] = .ok (.ldaIndirectY 0x44, [0xEA]) ∧
  decode [0xEA, 0x00, 0x00] = .error (.unimplementedOpcode 0xEA)

/-- The bytes the host writes at PC are the instruction the next step runs (spec 20 R45, the spec's decision D11,
log 8), at every PC, the top of memory included. -/
def Obligations.HostWrittenInstructionRunsNext : Prop :=
  ∀ (s : State) (i : Instr), Memory.wf s.mem = true →
    step (hostWrite s.pc (encode i) s) = exec i (hostWrite s.pc (encode i) s)

/-- A word of the opcode table placed where the step fetches is the instruction the next step runs (log 15). -/
def Obligations.PlacedTableWordRunsNext : Prop :=
  ∀ (s : State) (nbits w : Nat) (i : Instr), Memory.wf s.mem = true → decodeTableWord nbits w = some i →
    step (s.withFetchWord nbits w) = exec i (s.withFetchWord nbits w)

/-! ### Memory -/

/-- Spec 20 R34: every 16-bit quantity in memory is little-endian, and instruction bytes are fetched in increasing
address order (30 R50), modulo 65536, which is the spec's decision D4 (log 3). -/
def Obligations.WordsInMemoryAreLittleEndian : Prop :=
  ∀ m : Memory,
    (∀ address : Word, address.toNat < 0xFFFF →
      (readWord m address).toNat =
        (Memory.byteAt m address.toNat).toNat + 256 * (Memory.byteAt m (address.toNat + 1)).toNat) ∧
    (∀ p : Byte, (readWordZeroPageWrap m p).toNat =
      (Memory.byteAt m p.toNat).toNat + 256 * (Memory.byteAt m ((p.toNat + 1) % 256)).toNat) ∧
    (resetFrom m).pc.toNat = (Memory.byteAt m 0xFFFC).toNat + 256 * (Memory.byteAt m 0xFFFD).toNat ∧
    (∀ (address : Word) (n k : Nat), k < n →
      (bytesFrom m address n)[k]? = some (Memory.byteAt m ((address.toNat + k) % 65536)))

/-- Spec 20 R31, R32: where the two word reads wrap. The word at 0xFFFF takes its high byte from 0x0000 (the spec's
decision D3, log 3); a pointer at 0xFF takes it from 0x0000, not 0x0100. -/
def Obligations.WordReadsWrapAtTheTop : Prop :=
  ∀ m : Memory,
    (readWord m 0xFFFF).toNat = (Memory.byteAt m 0xFFFF).toNat + 256 * (Memory.byteAt m 0x0000).toNat ∧
    (readWordZeroPageWrap m 0xFF).toNat =
      (Memory.byteAt m 0x00FF).toNat + 256 * (Memory.byteAt m 0x0000).toNat ∧
    (∀ p : Byte, p ≠ 0xFF → readWordZeroPageWrap m p = readWord m (BitVec.ofNat 16 p.toNat))

/-- Spec 20 R39: zero-page sums wrap modulo 256 and stay in the zero page; full sums wrap modulo 65536. -/
def Obligations.AddressSumsWrapInTheirSpace : Prop :=
  (∀ b : Byte, (eaZeroPage b).toNat = b.toNat ∧ regionOf (eaZeroPage b) = .zeroPage) ∧
  (∀ b i : Byte, (eaZeroPageIndexed b i).toNat = (b.toNat + i.toNat) % 256 ∧
    regionOf (eaZeroPageIndexed b i) = .zeroPage) ∧
  (∀ (base : Word) (i : Byte), (eaIndexed base i).toNat = (base.toNat + i.toNat) % 65536) ∧
  eaIndexed 0xFFFF 0x01 = 0x0000

/-- Spec 20 R40: the address map, every address in exactly one region. -/
def Obligations.RegionsFollowTheAddressMap : Prop :=
  ∀ n : Word,
    (regionOf n = .zeroPage ↔ n.toNat ≤ 0x00FF) ∧
    (regionOf n = .stackPage ↔ 0x0100 ≤ n.toNat ∧ n.toNat ≤ 0x01FF) ∧
    (regionOf n = .plain ↔ 0x0200 ≤ n.toNat ∧ n.toNat ≤ 0xFFF9) ∧
    (regionOf n = .nmiVector ↔ n = 0xFFFA ∨ n = 0xFFFB) ∧
    (regionOf n = .resetVector ↔ n = 0xFFFC ∨ n = 0xFFFD) ∧
    (regionOf n = .irqVector ↔ n = 0xFFFE ∨ n = 0xFFFF)

/-- Spec 70 R151: byte j of a host write lands at `(address + j) mod 65536`, later bytes winning, and every other byte
reads as before; only memory changes. (The wrap is the spec's decision D10, log 8.) The canonical form is the model's
(log 16); `HostOperationsKeepMemoryCanonical` says that no session leaves it. -/
def Obligations.HostWriteLandsByteByByte : Prop :=
  ∀ (s : State) (address : Word) (bytes : List Byte), Memory.wf s.mem = true →
    (∀ n : Word, Memory.byteAt (hostWrite address bytes s).mem n.toNat =
      overlay (fun k => Memory.byteAt s.mem k.toNat) address bytes n) ∧
    SameRegisters s (hostWrite address bytes s)

/-- The canonical form means something (log 16): two canonical memories that read alike are equal data. -/
def Obligations.CanonicalMemoriesThatReadAlikeAreEqual : Prop :=
  ∀ m m' : Memory, Memory.wf m = true → Memory.wf m' = true →
    (∀ n : Word, Memory.byteAt m n.toNat = Memory.byteAt m' n.toNat) → m = m'

/-- Spec 20 R37 and the spec's decision D14 (log 11): a step depends on no byte of memory outside its list of reads.
Two states with the same registers whose memories agree on the bytes that one step reads take the same outcome, with
the same outputs. -/
def Obligations.StepDependsOnlyOnTheBytesItReads : Prop :=
  ∀ s s' : State, SameRegisters s s' →
    (∀ n ∈ stepReads s, Memory.byteAt s'.mem n.toNat = Memory.byteAt s.mem n.toNat) →
    stepReads s' = stepReads s ∧
    (∀ n t, execute s = .ok n t → ∃ t', execute s' = .ok n t' ∧ SameRegisters t t') ∧
    (∀ opcode faultPc t, execute s = .fault opcode faultPc t → ∃ t',
      execute s' = .fault opcode faultPc t' ∧ SameRegisters t t')

/-! ### The page-cross detector and the cycle output -/

/-- Spec 40 R80: the detector is the carry out of the low byte's sum, and exactly three modes use it, each on the low
byte of its own base and its own index. -/
def Obligations.PageCrossIsTheLowByteCarryOfThreeModes : Prop :=
  (∀ l i : Byte, pageCross l i = true ↔ 0x100 ≤ l.toNat + i.toNat) ∧
  ∀ (m : Memory) (pc1 : Word) (x y : Byte),
    (∀ mode ∈ [Mode.immediate, .zeroPage, .zeroPageX, .absolute, .indirectX],
      (resolve mode m pc1 x y).penalty = 0) ∧
    (resolve .absoluteX m pc1 x y).penalty =
      (if 0x100 ≤ (Memory.byteAt m pc1.toNat).toNat + x.toNat then 1 else 0) ∧
    (resolve .absoluteY m pc1 x y).penalty =
      (if 0x100 ≤ (Memory.byteAt m pc1.toNat).toNat + y.toNat then 1 else 0) ∧
    (resolve .indirectY m pc1 x y).penalty =
      (if 0x100 ≤ (Memory.byteAt m (Memory.byteAt m pc1.toNat).toNat).toNat + y.toNat then 1 else 0)

/-- Spec 40 R82, an inference of the spec from R80 and R39: the carry form and the page-number form are one. -/
def Obligations.PageCrossIffTheHighByteChanges : Prop :=
  ∀ (base : Word) (i : Byte),
    pageCross (lowByte base) i = true ↔ (base.toNat + i.toNat) % 65536 / 256 ≠ base.toNat / 256

/-- Spec 40 R86: the cycle total of a step is 1 + listed + penalty, mode by mode. The table of totals is an inference
of the spec from R79; where the operand byte lies beyond 0xFFFF is its decision D4 (log 3). -/
def Obligations.CycleTotalsFollowTheTable : Prop :=
  ∀ (s : State) (m : Mode), decodeOpcode (codeByte s 0) = some m → ∃ t,
    execute s = .ok (1 + (resolve m s.mem (s.pc + 1#16) s.x s.y).listed
      + (resolve m s.mem (s.pc + 1#16) s.x s.y).penalty) t ∧
    execute s = .ok (match m with
      | .immediate => 2
      | .zeroPage => 3
      | .zeroPageX => 4
      | .absolute => 4
      | .absoluteX => if 0x100 ≤ (codeByte s 1).toNat + s.x.toNat then 5 else 4
      | .absoluteY => if 0x100 ≤ (codeByte s 1).toNat + s.y.toNat then 5 else 4
      | .indirectX => 6
      | .indirectY =>
        if 0x100 ≤ (Memory.byteAt s.mem (codeByte s 1).toNat).toNat + s.y.toNat then 6 else 5) t

/-- The cycle total that `execute` reports is the one the rule of the instruction gives (conflict C8: two
presentations of one step). -/
def Obligations.CyclesOfStepAreThoseOfItsInstruction : Prop :=
  ∀ (s : State) (i : Instr), fetch s = .ok i → ∃ t, exec i s = .next t ∧ execute s = .ok (cyclesUsed i s) t

/-- Spec 20 R38, 70 R166, inferences of the spec: a successful step reports 2 to 6 cycles and reads 2 to 5 bytes, as
many as its mode says; a faulting step reads one. -/
def Obligations.CyclesAndReadsAreBounded : Prop :=
  ∀ s : State,
    (∀ n t, execute s = .ok n t → 2 ≤ n ∧ n ≤ 6 ∧
      ∃ m, decodeOpcode (codeByte s 0) = some m ∧ (stepReads s).length = readCount m ∧
        2 ≤ readCount m ∧ readCount m ≤ 5) ∧
    (∀ opcode faultPc t, execute s = .fault opcode faultPc t → (stepReads s).length = 1)

/-- Spec 10 R10, 41 R91: which mode reads which index register. -/
def Obligations.EachModeReadsOnlyItsIndexRegister : Prop :=
  ∀ (m : Memory) (pc1 : Word) (x y x' y' : Byte),
    (∀ mode ∈ [Mode.immediate, .zeroPage, .absolute], resolve mode m pc1 x y = resolve mode m pc1 x' y') ∧
    (∀ mode ∈ [Mode.zeroPageX, .absoluteX, .indirectX], resolve mode m pc1 x y = resolve mode m pc1 x y') ∧
    (∀ mode ∈ [Mode.absoluteY, .indirectY], resolve mode m pc1 x y = resolve mode m pc1 x' y)

/-! ### Reset -/

/-- Spec 70 R140: the reset event, from any session: every register, memory unchanged, no failure. -/
def Obligations.ResetLoadsEveryRegister : Prop :=
  ∀ σ : Session, ∃ t, hostStep .reset σ = .ok (.done, .running t) ∧ t = resetFrom σ.mem ∧
    t.a = 0x00 ∧ t.x = 0x00 ∧ t.y = 0x00 ∧ t.sp = 0xFD ∧
    t.p.c = false ∧ t.p.z = false ∧ t.p.i = false ∧ t.p.d = false ∧ t.p.b = false ∧ t.p.v = false ∧
    t.p.n = false ∧
    t.pc.toNat = (Memory.byteAt σ.mem 0xFFFC).toNat + 256 * (Memory.byteAt σ.mem 0xFFFD).toNat ∧
    t.mem = σ.mem ∧
    ∀ m' : Memory, Memory.byteAt m' 0xFFFC = Memory.byteAt σ.mem 0xFFFC →
      Memory.byteAt m' 0xFFFD = Memory.byteAt σ.mem 0xFFFD → SameRegisters t (resetFrom m')

/-- Spec 10 R27: the state right after reset over a created memory. -/
def Obligations.StateAfterResetIsTheTable : Prop :=
  State.reset = resetFrom createMemory ∧
  State.reset.a = 0x00 ∧ State.reset.x = 0x00 ∧ State.reset.y = 0x00 ∧ State.reset.sp = 0xFD ∧
  State.reset.p = { c := false, z := false, i := false, d := false, b := false, v := false, n := false } ∧
  State.reset.pc.toNat =
    256 * (Memory.byteAt State.reset.mem 0xFFFD).toNat + (Memory.byteAt State.reset.mem 0xFFFC).toNat ∧
  (∀ n : Word, Memory.byteAt State.reset.mem n.toNat = 0x00) ∧
  (∀ m : Memory, (resetFrom m).mem = m)

/-- Spec 70 R141: the vector is read once. A host write moves no register, wherever it lands; only another reset takes
the new vector; and the NMI and IRQ vectors are never read by reset. -/
def Obligations.ResetVectorIsReadOnlyByReset : Prop :=
  ∀ (s : State) (address : Word) (bytes : List Byte), ∃ t,
    hostStep (.write address bytes) (.running s) = .ok (.done, .running t) ∧ SameRegisters s t ∧
    hostStep .reset (.running t) = .ok (.done, .running (resetFrom t.mem)) ∧
    ∀ m' : Memory, (∀ n, n < 0xFFFA ∨ n = 0xFFFC ∨ n = 0xFFFD → Memory.byteAt m' n = Memory.byteAt t.mem n) →
      SameRegisters (resetFrom t.mem) (resetFrom m')

/-- Spec 70 R146, an inference of the spec: with nothing loaded the first step faults on the byte 0x00 at 0x0000. -/
def Obligations.BlankMachineFaultsAtOnce : Prop :=
  ∃ t, step State.reset = .fault (.unimplementedOpcode 0x00 0x0000 t) ∧ OnlyPcMoved State.reset t

/-! ### Sessions: what the host can do, over any sequence of its operations -/

/-- Spec 10 R24: after `create_memory` every byte is 0x00; from then on memory is what the host's writes made it,
whatever steps, resets, snapshots and presets stand between them (20 R42, 70 R151). That a write may stand between
steps, and wraps modulo 65536, is the spec's decision D10 (log 8). -/
def Obligations.MemoryIsTheLatestHostWrites : Prop :=
  (∀ (ops : List HostOp) (σ : Session), hostRun ops newSession = .ok σ →
    ∀ n : Word, Memory.byteAt σ.mem n.toNat = expectedBytes (fun _ => 0x00) ops n) ∧
  (∀ (op : HostOp) (σ σ' : Session) (ans : HostAnswer), hostStep op σ = .ok (ans, σ') →
    (∀ address bytes, op ≠ .write address bytes) → ∀ n : Nat, Memory.byteAt σ'.mem n = Memory.byteAt σ.mem n)

/-- The canonical form of memory is kept by every sequence of host operations, and holds at the start (log 16). -/
def Obligations.HostOperationsKeepMemoryCanonical : Prop :=
  Memory.wf newSession.mem = true ∧
  ∀ (ops : List HostOp) (σ σ' : Session), Memory.wf σ.mem = true → hostRun ops σ = .ok σ' →
    Memory.wf σ'.mem = true

/-- Spec 10 R12, R13, R19: no instruction writes X, Y, SP or the five inert flags. In every session with no
state_preset (the spec's decision D9, log 7) they hold their reset values for ever. -/
def Obligations.UnwrittenRegistersKeepTheirResetValues : Prop :=
  ∀ (ops : List HostOp) (σ : Session), (∀ op ∈ ops, op.isPreset = false) → hostRun ops newSession = .ok σ →
    ∀ s, σ = .running s ∨ σ = .faulted s →
      s.x = 0x00 ∧ s.y = 0x00 ∧ s.sp = 0xFD ∧ s.p.c = false ∧ s.p.i = false ∧ s.p.d = false ∧
      s.p.b = false ∧ s.p.v = false

/-- Spec 95 part 4 number 8: in a session with no state_preset (D9, log 7) no step ever pays the page-cross penalty. -/
def Obligations.NoPenaltyWithoutPreset : Prop :=
  ∀ (ops : List HostOp) (s : State), (∀ op ∈ ops, op.isPreset = false) →
    hostRun ops newSession = .ok (.running s) →
    ∀ n t, execute s = .ok n t → ∃ m, decodeOpcode (codeByte s 0) = some m ∧ n = totalWithoutCrossing m

/-- Spec 60 R125 and the spec's decision D7 (log 6): a fault is reported to the host and ends the run; reset and
state_preset begin a new one. The address reported, PC before the step, is 60 R121 and the spec's decision D6 (log
5). -/
def Obligations.FaultEndsTheRun : Prop :=
  ∀ s : State, decodeOpcode (codeByte s 0) = none → ∃ t,
    hostStep .execute (.running s) = .ok (.fault (codeByte s 0) s.pc, .faulted t) ∧ OnlyPcMoved s t ∧
    hostStep .execute (.faulted t) = .error .runEnded ∧
    hostStep .reset (.faulted t) = .ok (.done, .running (resetFrom t.mem)) ∧
    ∀ r, hostStep (.preset r) (.faulted t) = .ok (.done, .running (preset r t))

/-- Spec 60 R125 and the spec's decision D7 (log 6): once a run has ended, no sequence of operations without a reset
or a state_preset runs a step or moves a register. -/
def Obligations.EndedRunStaysEnded : Prop :=
  ∀ (ops : List HostOp) (s : State) (σ : Session), (∀ op ∈ ops, op.beginsRun = false) →
    hostRun ops (.faulted s) = .ok σ →
    HostOp.execute ∉ ops ∧ ∃ t, σ = .faulted t ∧ SameRegisters s t

/-- Spec 70 R154: snapshot returns PC, SP, A, X, Y and the seven flags as they are, and changes nothing. -/
def Obligations.SnapshotReadsEveryRegisterAndChangesNothing : Prop :=
  ∀ s : State,
    (∃ r, hostStep .snapshot (.running s) = .ok (.registers r, .running s) ∧ r.pc = s.pc ∧ r.sp = s.sp ∧
      r.a = s.a ∧ r.x = s.x ∧ r.y = s.y ∧ r.p = s.p) ∧
    hostStep .snapshot (.faulted s) = .ok (.registers (snapshot s), .faulted s)

/-- Spec 70 R155, the spec's decision D9 (log 7): state_preset loads the register file and leaves memory alone. -/
def Obligations.PresetLoadsTheRegisterFileOnly : Prop :=
  ∀ (r : Snapshot) (s : State),
    hostStep (.preset r) (.running s) = .ok (.done, .running (preset r s)) ∧ snapshot (preset r s) = r ∧
    (preset r s).mem = s.mem
end

