-- ==== Sys2Proof/Laws/Encoding.lean ====
section
/-! SUPPORT. The opcode map and the operand formats, one lemma per fact the other proofs cite. -/

namespace Sys2Proof

/-- Every term of `Instr` carries exactly the operand bytes of its format. -/
theorem wellFormed_all (i : Instr) : i.wellFormed = true := by cases i <;> rfl

/-- The encoder's opcode byte of a mode decodes to that mode (two columns of spec 30 R54 agree). -/
@[simp] theorem decodeOpcode_opcode (m : Mode) : decodeOpcode m.opcode = some m := by cases m <;> rfl

/-- A byte that decodes to a mode is that mode's opcode byte. -/
theorem opcode_of_decodeOpcode {o : Byte} {m : Mode} (h : decodeOpcode o = some m) : o = m.opcode := by
  have all : ∀ o : Byte, (decodeOpcode o).all (fun m => o == m.opcode) = true := by decide
  simpa [h] using all o

theorem encode_eq (i : Instr) : encode i = i.mode.opcode :: i.operands := rfl

theorem operands_length (i : Instr) : i.operands.length = i.mode.operandBytes := by cases i <;> rfl

theorem length_eq (i : Instr) : i.length = 1 + i.mode.operandBytes := by
  rw [Instr.length, operands_length]

/-- With at least as many bytes as the mode takes, operands are found, and they are the first ones. -/
theorem takeOperands_of_length {m : Mode} {bytes : List Byte} (h : m.operandBytes ≤ bytes.length) :
    ∃ i, i.mode = m ∧ i.operands = bytes.take m.operandBytes ∧
      takeOperands m bytes = some (i, bytes.drop m.operandBytes) := by
  cases m <;> rcases bytes with _ | ⟨b0, _ | ⟨b1, rest⟩⟩ <;>
    first
    | (simp [Mode.operandBytes] at h; done)
    | exact ⟨_, rfl, rfl, rfl⟩

end Sys2Proof
end

