-- ==== Sys2Proof/Laws/Memory.lean ====
section
/-! SUPPORT. The laws of the memory array: reading after a write, and the canonical form kept by every memory operation. -/

namespace Sys2Proof.Machine

@[simp] theorem byteAt_nil (n : Nat) : Memory.byteAt [] n = 0 := rfl

@[simp] theorem byteAt_cons (a : Nat) (v : Byte) (m : Memory) (n : Nat) :
    Memory.byteAt ((a, v) :: m) n = if a = n then v else Memory.byteAt m n := rfl

theorem unlisted_eq : Memory.unlisted = 0 := rfl

@[simp] theorem wfFrom_nil (low : Nat) : Memory.wfFrom low [] = true := rfl

theorem wfFrom_cons (low a : Nat) (v : Byte) (m : Memory) :
    Memory.wfFrom low ((a, v) :: m) = true ↔
      low ≤ a ∧ a < 65536 ∧ v ≠ 0 ∧ Memory.wfFrom (a + 1) m = true := by
  simp only [Memory.wfFrom, Bool.and_eq_true, decide_eq_true_eq, and_assoc]
  exact Iff.rfl

/-- A memory in canonical form from `low` up lists nothing below `low`. -/
theorem byteAt_below {low : Nat} {m : Memory} (h : Memory.wfFrom low m = true) {n : Nat} (hn : n < low) :
    Memory.byteAt m n = 0 := by
  induction m generalizing low with
  | nil => rfl
  | cons c m ih =>
    obtain ⟨a, v⟩ := c
    obtain ⟨h1, _, _, h4⟩ := (wfFrom_cons ..).1 h
    rw [byteAt_cons, if_neg (by omega)]
    exact ih h4 (by omega)

theorem wfFrom_mono {low low' : Nat} {m : Memory} (h : Memory.wfFrom low m = true) (hl : low' ≤ low) :
    Memory.wfFrom low' m = true := by
  cases m with
  | nil => rfl
  | cons c m =>
    obtain ⟨a, v⟩ := c
    obtain ⟨h1, h2⟩ := (wfFrom_cons ..).1 h
    exact (wfFrom_cons ..).2 ⟨by omega, h2⟩

/-- Read after write: the written byte, and every other byte as before. -/
theorem byteAt_setByte {m : Memory} {low : Nat} (h : Memory.wfFrom low m = true) (n k : Nat) (v : Byte) :
    Memory.byteAt (Memory.setByte m n v) k = if n = k then v else Memory.byteAt m k := by
  induction m generalizing low with
  | nil =>
    rw [Memory.setByte]
    split
    · subst_vars; split <;> rfl
    · rfl
  | cons c m ih =>
    obtain ⟨a, w⟩ := c
    obtain ⟨h1, h2, h3, h4⟩ := (wfFrom_cons ..).1 h
    have below : ∀ j, j ≤ a → Memory.byteAt m j = 0 := fun j hj => byteAt_below h4 (by omega)
    rw [Memory.setByte]
    split
    · rw [byteAt_cons, ih h4, byteAt_cons]
      split <;> split <;> first | rfl | omega
    · split
      · subst_vars
        split
        · subst_vars
          rw [byteAt_cons]
          split
          · subst_vars; exact below _ le_rfl
          · rfl
        · rw [byteAt_cons, byteAt_cons]; split <;> rfl
      · split
        · subst_vars
          split
          · subst_vars; rw [byteAt_cons, if_neg (by omega)]; exact below _ (by omega)
          · rfl
        · rfl

/-- A write inside the space keeps the canonical form. -/
theorem wfFrom_setByte {m : Memory} {low : Nat} (h : Memory.wfFrom low m = true) {n : Nat} (v : Byte)
    (hn : n < 65536) (hl : low ≤ n) : Memory.wfFrom low (Memory.setByte m n v) = true := by
  induction m generalizing low with
  | nil =>
    rw [Memory.setByte]
    split
    · rfl
    · exact (wfFrom_cons ..).2 ⟨hl, hn, ‹_›, rfl⟩
  | cons c m ih =>
    obtain ⟨a, w⟩ := c
    obtain ⟨h1, h2, h3, h4⟩ := (wfFrom_cons ..).1 h
    rw [Memory.setByte]
    split
    · exact (wfFrom_cons ..).2 ⟨h1, h2, h3, ih h4 (by omega)⟩
    · split
      · subst_vars
        split
        · exact wfFrom_mono h4 (by omega)
        · exact (wfFrom_cons ..).2 ⟨h1, h2, ‹_›, h4⟩
      · split
        · exact h
        · exact (wfFrom_cons ..).2 ⟨hl, hn, ‹_›, (wfFrom_cons ..).2 ⟨by omega, h2, h3, h4⟩⟩

theorem wf_setByte {m : Memory} (h : Memory.wf m = true) {n : Nat} (v : Byte) (hn : n < 65536) :
    Memory.wf (Memory.setByte m n v) = true :=
  wfFrom_setByte h v hn (Nat.zero_le n)

theorem wf_createMemory : Memory.wf createMemory = true := rfl

@[simp] theorem readByte_createMemory (address : Word) : readByte createMemory address = 0 := rfl

/-- One byte written: what every address reads afterwards. -/
theorem readByte_setByte {m : Memory} (h : Memory.wf m = true) (address n : Word) (v : Byte) :
    readByte (Memory.setByte m address.toNat v) n = if n = address then v else readByte m n := by
  simp only [readByte, byteAt_setByte h, BitVec.toNat_inj, eq_comm]

@[simp] theorem writeBytes_nil (m : Memory) (address : Word) : writeBytes m address [] = m := rfl

theorem writeBytes_cons (m : Memory) (address : Word) (v : Byte) (rest : List Byte) :
    writeBytes m address (v :: rest) = writeBytes (Memory.setByte m address.toNat v) (address + 1#16) rest := rfl

/-- The host's write keeps the canonical form. -/
theorem wf_writeBytes {m : Memory} (h : Memory.wf m = true) (address : Word) (bytes : List Byte) :
    Memory.wf (writeBytes m address bytes) = true := by
  induction bytes generalizing m address with
  | nil => exact h
  | cons v rest ih => exact ih (wf_setByte h v address.isLt) (address + 1#16)

/-- Placing the next instruction keeps the canonical form. -/
theorem wf_placeFetchWord {s : State} (h : Memory.wf s.mem = true) (nbits w : Nat) :
    Memory.wf (placeFetchWord s nbits w).mem = true :=
  wf_writeBytes h _ _

theorem reset_mem_wf : Memory.wf State.reset.mem = true := rfl

end Sys2Proof.Machine
end

