-- ==== Sys2Proof/Laws/Operands.lean ====
section
/-! SUPPORT. What the small operations of the resolver are as numbers: one lemma per operation, cited instead of unfolding it. -/

namespace Sys2Proof.Machine

@[simp] theorem zext16_toNat (b : Byte) : (zext16 b).toNat = b.toNat := by
  have := b.isLt
  simp only [zext16, BitVec.toNat_setWidth]
  omega

@[simp] theorem wordOf_toNat (hi lo : Byte) : (wordOf hi lo).toNat = lo.toNat + 256 * hi.toNat := by
  rw [wordOf, BitVec.toNat_append, ← Nat.shiftLeft_add_eq_or_of_lt lo.isLt, Nat.shiftLeft_eq]
  omega

@[simp] theorem lowByte_wordOf (hi lo : Byte) : lowByte (wordOf hi lo) = lo := by
  apply BitVec.eq_of_toNat_eq
  have h : (lowByte (wordOf hi lo)).toNat = (wordOf hi lo).toNat % 2 ^ 8 := BitVec.toNat_setWidth ..
  have := lo.isLt
  rw [h, wordOf_toNat]
  omega

theorem lowByte_toNat (w : Word) : (lowByte w).toNat = w.toNat % 256 := BitVec.toNat_setWidth ..

theorem highByte_toNat (w : Word) : (highByte w).toNat = w.toNat / 256 := by
  have := w.isLt
  simp only [highByte, BitVec.extractLsb'_toNat, Nat.shiftRight_eq_div_pow]
  omega

theorem eaIndexed_toNat (base : Word) (index : Byte) :
    (eaIndexed base index).toNat = (base.toNat + index.toNat) % 65536 := by
  simp [eaIndexed, BitVec.toNat_add]

theorem eaZeroPageIndexed_toNat (b index : Byte) :
    (eaZeroPageIndexed b index).toNat = (b.toNat + index.toNat) % 256 := by
  simp [eaZeroPageIndexed, BitVec.toNat_add]

theorem pageCross_iff (l i : Byte) : pageCross l i = true ↔ 256 ≤ l.toNat + i.toNat := by
  simp [pageCross]

theorem flagZ_iff (v : Byte) : flagZ v = true ↔ v.toNat = 0 := by
  simp [flagZ, ← BitVec.toNat_inj]

theorem flagN_iff (v : Byte) : flagN v = true ↔ 128 ≤ v.toNat := by
  have h := BitVec.msb_eq_decide v
  rw [BitVec.msb_eq_getLsbD_last] at h
  simpa [flagN] using congrArg (· = true) h

theorem penaltyOf_eq (base : Word) (index : Byte) :
    penaltyOf base index = if pageCross (lowByte base) index then 1 else 0 := rfl

end Sys2Proof.Machine
end

