-- ==== Sys2Proof/Laws/PerInstr.lean ====
section
/-! SUPPORT. Statements made for every instruction, one lemma per constructor. -/

namespace Sys2Proof.Laws.EncodeForm

/-- The encoding of `i` has `i`'s length, 2 or 3 bytes (spec 30 R50), begins with an opcode byte that decodes to
`i`'s mode (spec 30 R54), and goes on with operand bytes of the number the mode's format takes (spec 30 R51, R52). -/
def Statement (i : Instr) : Prop :=
  (encode i).length = i.length ∧ (i.length = 2 ∨ i.length = 3) ∧
    (∃ o rest, encode i = o :: rest ∧ decodeOpcode o = some i.mode ∧ operandsFit i.mode rest = true)

theorem ldaImmediate (b : Byte) : Statement (.ldaImmediate b) :=
  ⟨rfl, .inl rfl, _, _, rfl, decodeOpcode_opcode _, rfl⟩

theorem ldaZeroPage (b : Byte) : Statement (.ldaZeroPage b) :=
  ⟨rfl, .inl rfl, _, _, rfl, decodeOpcode_opcode _, rfl⟩

theorem ldaZeroPageX (b : Byte) : Statement (.ldaZeroPageX b) :=
  ⟨rfl, .inl rfl, _, _, rfl, decodeOpcode_opcode _, rfl⟩

theorem ldaAbsolute (lo hi : Byte) : Statement (.ldaAbsolute lo hi) :=
  ⟨rfl, .inr rfl, _, _, rfl, decodeOpcode_opcode _, rfl⟩

theorem ldaAbsoluteX (lo hi : Byte) : Statement (.ldaAbsoluteX lo hi) :=
  ⟨rfl, .inr rfl, _, _, rfl, decodeOpcode_opcode _, rfl⟩

theorem ldaAbsoluteY (lo hi : Byte) : Statement (.ldaAbsoluteY lo hi) :=
  ⟨rfl, .inr rfl, _, _, rfl, decodeOpcode_opcode _, rfl⟩

theorem ldaIndirectX (b : Byte) : Statement (.ldaIndirectX b) :=
  ⟨rfl, .inl rfl, _, _, rfl, decodeOpcode_opcode _, rfl⟩

theorem ldaIndirectY (b : Byte) : Statement (.ldaIndirectY b) :=
  ⟨rfl, .inl rfl, _, _, rfl, decodeOpcode_opcode _, rfl⟩

end Sys2Proof.Laws.EncodeForm
end

