-- ==== Sys2Proof/Laws/State.lean ====
section
/-! SUPPORT. One lemma per field per update of the state, so that no later proof unfolds a record update. -/

namespace Sys2Proof.Machine

variable (s : State) (p : Flags) (v : Byte) (n : Nat) (m : Memory) (r : Snapshot) (address : Word) (bytes : List Byte)

@[simp] theorem afterLoad_z : (p.afterLoad v).z = flagZ v := rfl
@[simp] theorem afterLoad_n : (p.afterLoad v).n = flagN v := rfl
@[simp] theorem afterLoad_c : (p.afterLoad v).c = p.c := rfl
@[simp] theorem afterLoad_i : (p.afterLoad v).i = p.i := rfl
@[simp] theorem afterLoad_d : (p.afterLoad v).d = p.d := rfl
@[simp] theorem afterLoad_b : (p.afterLoad v).b = p.b := rfl
@[simp] theorem afterLoad_v : (p.afterLoad v).v = p.v := rfl

@[simp] theorem advancePc_pc : (advancePc n s).pc = s.pc + BitVec.ofNat 16 n := rfl
@[simp] theorem advancePc_sp : (advancePc n s).sp = s.sp := rfl
@[simp] theorem advancePc_a : (advancePc n s).a = s.a := rfl
@[simp] theorem advancePc_x : (advancePc n s).x = s.x := rfl
@[simp] theorem advancePc_y : (advancePc n s).y = s.y := rfl
@[simp] theorem advancePc_p : (advancePc n s).p = s.p := rfl
@[simp] theorem advancePc_mem : (advancePc n s).mem = s.mem := rfl

@[simp] theorem loadA_pc : (loadA v s).pc = s.pc := rfl
@[simp] theorem loadA_sp : (loadA v s).sp = s.sp := rfl
@[simp] theorem loadA_a : (loadA v s).a = v := rfl
@[simp] theorem loadA_x : (loadA v s).x = s.x := rfl
@[simp] theorem loadA_y : (loadA v s).y = s.y := rfl
@[simp] theorem loadA_p : (loadA v s).p = s.p.afterLoad v := rfl
@[simp] theorem loadA_mem : (loadA v s).mem = s.mem := rfl

@[simp] theorem afterLda_pc : (afterLda n v s).pc = s.pc + BitVec.ofNat 16 n := rfl
@[simp] theorem afterLda_sp : (afterLda n v s).sp = s.sp := rfl
@[simp] theorem afterLda_a : (afterLda n v s).a = v := rfl
@[simp] theorem afterLda_x : (afterLda n v s).x = s.x := rfl
@[simp] theorem afterLda_y : (afterLda n v s).y = s.y := rfl
@[simp] theorem afterLda_p : (afterLda n v s).p = s.p.afterLoad v := rfl
@[simp] theorem afterLda_mem : (afterLda n v s).mem = s.mem := rfl

@[simp] theorem hostWrite_pc : (hostWrite address bytes s).pc = s.pc := rfl
@[simp] theorem hostWrite_sp : (hostWrite address bytes s).sp = s.sp := rfl
@[simp] theorem hostWrite_a : (hostWrite address bytes s).a = s.a := rfl
@[simp] theorem hostWrite_x : (hostWrite address bytes s).x = s.x := rfl
@[simp] theorem hostWrite_y : (hostWrite address bytes s).y = s.y := rfl
@[simp] theorem hostWrite_p : (hostWrite address bytes s).p = s.p := rfl
@[simp] theorem hostWrite_mem : (hostWrite address bytes s).mem = writeBytes s.mem address bytes := rfl

@[simp] theorem preset_pc : (preset r s).pc = r.pc := rfl
@[simp] theorem preset_sp : (preset r s).sp = r.sp := rfl
@[simp] theorem preset_a : (preset r s).a = r.a := rfl
@[simp] theorem preset_x : (preset r s).x = r.x := rfl
@[simp] theorem preset_y : (preset r s).y = r.y := rfl
@[simp] theorem preset_p : (preset r s).p = r.p := rfl
@[simp] theorem preset_mem : (preset r s).mem = s.mem := rfl

@[simp] theorem resetFrom_pc : (resetFrom m).pc = readWord m Config.resetVector := rfl
@[simp] theorem resetFrom_sp : (resetFrom m).sp = Config.spReset := rfl
@[simp] theorem resetFrom_a : (resetFrom m).a = 0 := rfl
@[simp] theorem resetFrom_x : (resetFrom m).x = 0 := rfl
@[simp] theorem resetFrom_y : (resetFrom m).y = 0 := rfl
@[simp] theorem resetFrom_mem : (resetFrom m).mem = m := rfl

/-- The fault's reason, opened once: the opcode byte, its address, and the state with PC moved by one. -/
theorem raiseUnimplementedOpcode_eq :
    raiseUnimplementedOpcode s = .unimplementedOpcode (readByte s.mem s.pc) s.pc (advancePc 1 s) := rfl

end Sys2Proof.Machine
end

