-- ==== Sys2Proof/Laws/Session.lean ====
section
/-! SUPPORT. What one operation of the host can do to a session's memory and to X and Y. -/

namespace Sys2Proof.Machine

/-- `execute` never touches memory, X or Y, whatever its outcome. -/
theorem afterExecute_execute (s : State) :
    ∃ t, ((afterExecute (execute s)).2 = .running t ∨ (afterExecute (execute s)).2 = .faulted t) ∧
      t.mem = s.mem ∧ t.x = s.x ∧ t.y = s.y := by
  unfold execute
  dsimp only
  split
  · exact ⟨_, .inr rfl, rfl, rfl, rfl⟩
  · exact ⟨_, .inl rfl, rfl, rfl, rfl⟩

/-- The memory after one operation: a write changes it, nothing else does. -/
theorem hostStep_mem {op : HostOp} {σ σ' : Session} {ans : HostAnswer} (h : hostStep op σ = .ok (ans, σ')) :
    σ'.mem = match op with
      | .write address bytes => writeBytes σ.mem address bytes
      | .reset | .execute | .snapshot | .preset _ => σ.mem := by
  cases op <;> cases σ <;> simp only [hostStep, Except.ok.injEq, Prod.mk.injEq, reduceCtorEq] at h
  case execute.running s h =>
    obtain ⟨t, ht, hm, -, -⟩ := afterExecute_execute s
    rw [h] at ht
    obtain rfl | rfl := ht <;> exact hm
  all_goals
    obtain ⟨_, rfl⟩ := h
    rfl

/-- A sequence of operations runs exactly when its first one does and the rest runs after it. -/
theorem hostRun_cons {op : HostOp} {ops : List HostOp} {σ σ' : Session} :
    hostRun (op :: ops) σ = .ok σ' ↔ ∃ ans τ, hostStep op σ = .ok (ans, τ) ∧ hostRun ops τ = .ok σ' := by
  rw [hostRun]
  cases hostStep op σ with
  | error e => simp
  | ok r => obtain ⟨ans, τ⟩ := r; simp

end Sys2Proof.Machine
end

