-- ==== Sys2Proof/Laws/Step.lean ====
section
/-! SUPPORT. What one step can do, said once: the instruction at PC runs, or the opcode byte is unimplemented and the step faults. -/

namespace Sys2Proof.Machine

/-- Every instruction, at every state, ends in the state after a load of some byte and of its own length. -/
theorem exec_completes (i : Instr) (s : State) : ∃ v, exec i s = .next (afterLda i.length v s) := by
  cases i <;> exact ⟨_, rfl⟩

/-- If an instruction answers a next state, that is the state after a load of some byte and of its own length. -/
theorem exec_next {i : Instr} {s t : State} (h : exec i s = .next t) : ∃ v, t = afterLda i.length v s := by
  obtain ⟨v, hv⟩ := exec_completes i s
  rw [hv] at h
  exact ⟨v, (Host.Outcome.next.inj h).symm⟩

theorem bytesFrom_length (m : Memory) (address : Word) (n : Nat) : (bytesFrom m address n).length = n := by
  induction n generalizing address with
  | zero => rfl
  | succ n ih => rw [bytesFrom, List.length_cons, ih]

/-- Where the opcode byte is implemented, the fetch gives an instruction of its mode, made of the operand bytes
that follow it. -/
theorem fetch_of_some {s : State} {m : Mode} (h : decodeOpcode (readByte s.mem s.pc) = some m) :
    ∃ i, i.mode = m ∧ i.operands = bytesFrom s.mem (s.pc + 1#16) m.operandBytes ∧ fetch s = .ok i := by
  have hb : bytesFrom s.mem s.pc (fetchLength (readByte s.mem s.pc)) =
      readByte s.mem s.pc :: bytesFrom s.mem (s.pc + 1#16) m.operandBytes := by
    simp only [fetchLength, h, Nat.add_comm 1]; rfl
  have hl := bytesFrom_length s.mem (s.pc + 1#16) m.operandBytes
  obtain ⟨i, hm, ho, ht⟩ := takeOperands_of_length (m := m) hl.ge
  rw [List.take_of_length_le hl.le] at ho
  refine ⟨i, hm, ho, ?_⟩
  simp only [fetch, hb, decode, h, ht]

/-- Where the opcode byte is none of the eight, the fetch gives no instruction, for that reason. -/
theorem fetch_of_none {s : State} (h : decodeOpcode (readByte s.mem s.pc) = none) :
    fetch s = .error (.unimplementedOpcode (readByte s.mem s.pc)) := by
  simp [fetch, fetchLength, h, bytesFrom, decode]

/-- The one reason a fetch can give no instruction. -/
theorem fetch_error {s : State} {e : DecodeError} (h : fetch s = .error e) :
    e = .unimplementedOpcode (readByte s.mem s.pc) ∧ decodeOpcode (readByte s.mem s.pc) = none := by
  cases ho : decodeOpcode (readByte s.mem s.pc) with
  | none => rw [fetch_of_none ho] at h; exact ⟨(Except.error.inj h).symm, rfl⟩
  | some m => obtain ⟨i, _, _, hi⟩ := fetch_of_some ho; rw [hi] at h; cases h

/-- Everything a step can do. -/
theorem step_cases (s : State) :
    (∃ i, fetch s = .ok i ∧ decodeOpcode (readByte s.mem s.pc) = some i.mode ∧ step s = exec i s) ∨
    (decodeOpcode (readByte s.mem s.pc) = none ∧ step s = .fault (raiseUnimplementedOpcode s)) := by
  cases ho : decodeOpcode (readByte s.mem s.pc) with
  | none => exact .inr ⟨rfl, by rw [step, fetch_of_none ho]⟩
  | some m =>
    obtain ⟨i, hm, _, hi⟩ := fetch_of_some ho
    exact .inl ⟨i, hi, by rw [hm], by rw [step, hi]⟩

/-- A step that answers a next state ran an instruction of 2 or 3 bytes that loaded some byte. -/
theorem step_next {s t : State} (h : step s = .next t) :
    ∃ i v, fetch s = .ok i ∧ exec i s = .next t ∧ t = afterLda i.length v s := by
  obtain ⟨i, hf, -, hs⟩ | ⟨-, hs⟩ := step_cases s
  · rw [hs] at h
    obtain ⟨v, hv⟩ := exec_next h
    exact ⟨i, v, hf, h, hv⟩
  · rw [hs] at h; cases h

/-- A step that faults met an unimplemented opcode byte. -/
theorem step_fault {s : State} {f : Fault} (h : step s = .fault f) :
    decodeOpcode (readByte s.mem s.pc) = none ∧ f = raiseUnimplementedOpcode s := by
  obtain ⟨i, -, -, hs⟩ | ⟨hn, hs⟩ := step_cases s
  · obtain ⟨v, hv⟩ := exec_completes i s
    rw [hs, hv] at h; cases h
  · rw [hs] at h; exact ⟨hn, (Host.Outcome.fault.inj h).symm⟩

/-- `execute` where the opcode byte is none of the eight. -/
theorem execute_of_none {s : State} (h : decodeOpcode (readByte s.mem s.pc) = none) :
    execute s = .fault (readByte s.mem s.pc) s.pc (advancePc 1 s) := by
  simp [execute, h]

/-- `execute` where the opcode byte selects a mode: the resolver's outputs, loaded and counted. -/
theorem execute_of_some {s : State} {m : Mode} (h : decodeOpcode (readByte s.mem s.pc) = some m) :
    execute s =
      .ok (1 + (resolve m s.mem (s.pc + 1#16) s.x s.y).listed + (resolve m s.mem (s.pc + 1#16) s.x s.y).penalty)
        (afterLda (1 + (resolve m s.mem (s.pc + 1#16) s.x s.y).advance)
          (resolve m s.mem (s.pc + 1#16) s.x s.y).value s) := by
  simp [execute, h, afterLda, advancePc, loadA, BitVec.ofNat_add, BitVec.add_assoc]

/-- The byte at PC, as the statements write it and as the machine reads it. -/
theorem codeByte_zero (s : State) : codeByte s 0 = readByte s.mem s.pc := by
  rw [codeByte, Nat.add_zero, Nat.mod_eq_of_lt s.pc.isLt, readByte]

/-- The byte `k` places after PC, as the statements write it and as the machine reads it. -/
theorem codeByte_eq (s : State) (k : Nat) : codeByte s k = readByte s.mem (s.pc + BitVec.ofNat 16 k) := by
  simp [codeByte, readByte, BitVec.toNat_add]

/-- The shared effect of the eight instructions is what the statements call `Loaded`. -/
theorem loaded_afterLda (s : State) (v : Byte) (n : Nat) : Loaded s (afterLda n v s) v n where
  a := rfl
  flags := ⟨by simp [flagZ_iff], by simp [flagN_iff]⟩
  pc := by simp [BitVec.toNat_add]
  inert := ⟨rfl, rfl, rfl, rfl, rfl, rfl, rfl, rfl⟩
  memory := ⟨rfl, fun _ => rfl⟩

/-- The state a faulting step leaves is what the statements call `OnlyPcMoved`. -/
theorem onlyPcMoved_advancePc (s : State) : OnlyPcMoved s (advancePc 1 s) where
  pc := by simp [BitVec.toNat_add]
  a := rfl
  z := rfl
  n := rfl
  inert := ⟨rfl, rfl, rfl, rfl, rfl, rfl, rfl, rfl⟩
  memory := ⟨rfl, fun _ => rfl⟩

/-- An instruction is its mode and its operand bytes. -/
theorem instr_ext {i j : Instr} (hm : i.mode = j.mode) (ho : i.operands = j.operands) : i = j := by
  cases i <;> cases j <;> simp_all [Instr.mode, Instr.operands]

/-- The fetch gives the instruction whose mode the opcode byte selects and whose operand bytes stand after it. -/
theorem fetch_of_operands {s : State} {i : Instr} (hm : decodeOpcode (readByte s.mem s.pc) = some i.mode)
    (ho : i.operands = bytesFrom s.mem (s.pc + 1#16) i.mode.operandBytes) : fetch s = .ok i := by
  obtain ⟨j, h1, h2, h3⟩ := fetch_of_some hm
  rw [h3, instr_ext h1 (h2.trans ho.symm)]

theorem stepReads_of_none {s : State} (h : decodeOpcode (readByte s.mem s.pc) = none) : stepReads s = [s.pc] := by
  simp [stepReads, h]

theorem stepReads_of_some {s : State} {m : Mode} (h : decodeOpcode (readByte s.mem s.pc) = some m) :
    stepReads s = s.pc :: resolveReads m s.mem (s.pc + 1#16) s.x s.y := by
  simp [stepReads, h]

end Sys2Proof.Machine
end

