-- ==== Sys2Proof/Tests/Slice0.lean ====
section
/-! SUPPORT. The model's own tests: words decoded, single steps on the vectors of spec 95, and a witness for the hypotheses of every statement that has some. Expected results come from spec/, never from the model. -/

namespace Sys2Proof.Tests

open Sys2Proof.Machine

/-! ### WellFormed: each mode refuses a wrong number of operand bytes (spec 30 R50 to R52) -/

theorem test_illFormed_refused :
    operandsFit .immediate [] = false ∧ operandsFit .zeroPage [0x10, 0x20] = false ∧
    operandsFit .zeroPageX [] = false ∧ operandsFit .absolute [0x34] = false ∧
    operandsFit .absoluteX [0xFF, 0x20, 0x00] = false ∧ operandsFit .absoluteY [] = false ∧
    operandsFit .indirectX [0x20, 0x00] = false ∧ operandsFit .indirectY [] = false := by decide

theorem test_wellFormed_accepted :
    (Instr.ldaImmediate 0x45).wellFormed = true ∧ (Instr.ldaAbsoluteX 0xFF 0x20).wellFormed = true := by decide

/-! ### Decoding: words written out from the encodings of spec 30 R51, R52, R54 (operand bytes above the opcode) -/

theorem test_decode_ldaImmediate : decodeTableWord 16 0b01000101_10101001 = some (.ldaImmediate 0x45) := by decide
theorem test_decode_ldaZeroPage : decodeTableWord 16 0b00010000_10100101 = some (.ldaZeroPage 0x10) := by decide
theorem test_decode_ldaZeroPageX : decodeTableWord 16 0b11111110_10110101 = some (.ldaZeroPageX 0xFE) := by decide
theorem test_decode_ldaAbsolute :
    decodeTableWord 24 0b00010010_00110100_10101101 = some (.ldaAbsolute 0x34 0x12) := by decide
theorem test_decode_ldaAbsoluteX :
    decodeTableWord 24 0b00100000_11111111_10111101 = some (.ldaAbsoluteX 0xFF 0x20) := by decide
theorem test_decode_ldaAbsoluteY :
    decodeTableWord 24 0b00110000_00000001_10111001 = some (.ldaAbsoluteY 0x01 0x30) := by decide
theorem test_decode_ldaIndirectX : decodeTableWord 16 0b00100000_10100001 = some (.ldaIndirectX 0x20) := by decide
theorem test_decode_ldaIndirectY : decodeTableWord 16 0b01000100_10110001 = some (.ldaIndirectY 0x44) := by decide

/-- The table gives operand bytes no bits: bits above `nbits` are zero. -/
theorem test_decode_opcode_bits_only : decodeTableWord 8 0xFFFFAD = some (.ldaAbsolute 0x00 0x00) := by decide

/-- Exactly the eight bytes of spec 95 section 2.4 decode; all its near misses are among the others. -/
theorem test_decoder_has_exactly_eight_bytes :
    ∀ o : Byte, (decodeOpcode o).isSome = [0xA1, 0xA5, 0xA9, 0xAD, 0xB1, 0xB5, 0xB9, 0xBD].contains o := by decide

theorem test_decode_missing_operand : decode [0xAD, 0x34] = .error (.missingOperand .absolute) := by rfl

/-! ### Single steps on the vectors of spec 95 -/

/-- A reset machine with PC, X and Y preset, with code at PC and data elsewhere (spec 95, conventions). -/
def machineAt (pc : Word) (x y : Byte) (code : List Byte) (data : List (Word × List Byte)) : State :=
  { State.reset with
    pc := pc, x := x, y := y,
    mem := data.foldl (fun m d => writeBytes m d.1 d.2) (writeBytes createMemory pc code) }

/-- The columns of spec 95 section 2.5 that a load changes: cycles, PC, A, Z, N, and the addresses read. -/
structure Seen where
  cycles : Nat
  pc : Word
  a : Byte
  z : Bool
  n : Bool
  reads : List Word
  deriving DecidableEq, Repr

/-- What a successful step shows, where `step` and `execute` leave the same state. -/
def outcomeOf (s : State) : Option Seen :=
  match execute s, step s with
  | .ok n t, .next t' => if t = t' then some ⟨n, t.pc, t.a, t.p.z, t.p.n, stepReads s⟩ else none
  | .ok _ _, .fault _ => none
  | .ok _ _, .refused _ => none
  | .fault _ _ _, _ => none

/-- V1, with all other flags set: Z set, N cleared, the five others kept. -/
theorem test_V1_flags :
    step { machineAt 0x0200 0 0 [0xA9, 0x00] [] with
        a := 0x55, p := { c := true, z := false, i := true, d := true, b := true, v := true, n := true } } =
      .next { machineAt 0x0200 0 0 [0xA9, 0x00] [] with
        pc := 0x0202, a := 0x00,
        p := { c := true, z := true, i := true, d := true, b := true, v := true, n := false } } := by rfl

theorem test_V5_immediate_pc_wrap :
    outcomeOf (machineAt 0xFFFF 0 0 [0xA9, 0x33] []) =
      some ⟨2, 0x0001, 0x33, false, false, [0xFFFF, 0x0000]⟩ := by decide

theorem test_V6_zeroPage_top :
    outcomeOf (machineAt 0x0200 0 0 [0xA5, 0xFF] [(0x00FF, [0x80])]) =
      some ⟨3, 0x0202, 0x80, false, true, [0x0200, 0x0201, 0x00FF]⟩ := by decide

theorem test_S4_zeroPage :
    outcomeOf (machineAt 0x0200 0 0 [0xA5, 0x00] [(0x0000, [0x45])]) =
      some ⟨3, 0x0202, 0x45, false, false, [0x0200, 0x0201, 0x0000]⟩ := by decide

theorem test_V7_zeroPageX_wraps :
    outcomeOf (machineAt 0x0200 0x01 0 [0xB5, 0xFF] [(0x0000, [0x11]), (0x0100, [0x99])]) =
      some ⟨4, 0x0202, 0x11, false, false, [0x0200, 0x0201, 0x0000]⟩ := by decide

theorem test_V9_zeroPageX_minus_one :
    outcomeOf (machineAt 0x0200 0xFF 0 [0xB5, 0x80] [(0x0080, [0x77])]) =
      some ⟨4, 0x0202, 0x00, true, false, [0x0200, 0x0201, 0x007F]⟩ := by decide

theorem test_V12_absolute_operand_at_top :
    outcomeOf (machineAt 0xFFFE 0 0 [0xAD, 0x78, 0x56] [(0x5678, [0xC3])]) =
      some ⟨4, 0x0001, 0xC3, false, true, [0xFFFE, 0xFFFF, 0x0000, 0x5678]⟩ := by decide

theorem test_V14_absolute_own_opcode :
    outcomeOf (machineAt 0x0200 0 0 [0xAD, 0x00, 0x02] []) =
      some ⟨4, 0x0203, 0xAD, false, true, [0x0200, 0x0201, 0x0202, 0x0200]⟩ := by decide

theorem test_V15_absoluteX_wraps_and_crosses :
    outcomeOf (machineAt 0x0200 0x01 0 [0xBD, 0xFF, 0xFF] [(0x0000, [0x42])]) =
      some ⟨5, 0x0203, 0x42, false, false, [0x0200, 0x0201, 0x0202, 0x0000]⟩ := by decide

theorem test_V18_absoluteX_just_below_crossing :
    outcomeOf (machineAt 0x0200 0xFE 0 [0xBD, 0x01, 0x30] [(0x30FF, [0x7E])]) =
      some ⟨4, 0x0203, 0x7E, false, false, [0x0200, 0x0201, 0x0202, 0x30FF]⟩ := by decide

theorem test_V20_absoluteY_ignores_x :
    outcomeOf (machineAt 0x0200 0x09 0x02 [0xB9, 0x00, 0x40] [(0x4002, [0xAA]), (0x4009, [0xBB])]) =
      some ⟨4, 0x0203, 0xAA, false, true, [0x0200, 0x0201, 0x0202, 0x4002]⟩ := by decide

theorem test_V21_absoluteY_wraps :
    outcomeOf (machineAt 0x0200 0 0x1F [0xB9, 0xF0, 0xFF] []) =
      some ⟨5, 0x0203, 0x00, true, false, [0x0200, 0x0201, 0x0202, 0x000F]⟩ := by decide

theorem test_V23_indirectX_pointer_wraps :
    outcomeOf (machineAt 0x0200 0x01 0 [0xA1, 0xFE]
        [(0x00FF, [0x34]), (0x0000, [0x12]), (0x0100, [0x99]), (0x1234, [0xEE]), (0x9934, [0x11])]) =
      some ⟨6, 0x0202, 0xEE, false, true, [0x0200, 0x0201, 0x00FF, 0x0000, 0x1234]⟩ := by decide

theorem test_V24_indirectX_sum_wraps :
    outcomeOf (machineAt 0x0200 0x02 0 [0xA1, 0xFF] [(0x0001, [0x00, 0x03])]) =
      some ⟨6, 0x0202, 0x00, true, false, [0x0200, 0x0201, 0x0001, 0x0002, 0x0300]⟩ := by decide

theorem test_V26_indirectY_pointer_wraps :
    outcomeOf (machineAt 0x0200 0 0x05 [0xB1, 0xFF]
        [(0x00FF, [0x10]), (0x0000, [0x20]), (0x0100, [0x99]), (0x2015, [0x66]), (0x9915, [0x11])]) =
      some ⟨5, 0x0202, 0x66, false, false, [0x0200, 0x0201, 0x00FF, 0x0000, 0x2015]⟩ := by decide

theorem test_V27_indirectY_base_wraps_and_crosses :
    outcomeOf (machineAt 0x0200 0 0x01 [0xB1, 0x10] [(0x0010, [0xFF, 0xFF])]) =
      some ⟨6, 0x0202, 0x00, true, false, [0x0200, 0x0201, 0x0010, 0x0011, 0x0000]⟩ := by decide

/-- V41: a full 6502's NOP faults; only PC moves. -/
theorem test_V41_fault :
    step (machineAt 0x0300 0 0 [0xEA] []) =
      .fault (.unimplementedOpcode 0xEA 0x0300 { machineAt 0x0300 0 0 [0xEA] [] with pc := 0x0301 }) := by rfl

/-- V43: PC wraps on the fault path too. -/
theorem test_V43_fault_pc_wrap :
    execute (machineAt 0xFFFF 0 0 [0x8D] []) =
      .fault 0x8D 0xFFFF { machineAt 0xFFFF 0 0 [0x8D] [] with pc := 0x0000 } := by rfl

/-! ### Memory, the detector, reset -/

theorem test_M2_M5_word_reads :
    readWord (writeBytes createMemory 0xFFFF [0x34, 0x12]) 0xFFFF = 0x1234 ∧
    readWordZeroPageWrap (machineAt 0x00FF 0 0 [0x34, 0x99] [(0x0000, [0x12])]).mem 0xFF = 0x1234 := by decide

/-- The table of spec 95 section 2.2. -/
theorem test_pageCross_table :
    [pageCross 0x00 0x00, pageCross 0xFF 0x00, pageCross 0x00 0xFF, pageCross 0xFF 0x01, pageCross 0x01 0xFF,
      pageCross 0x01 0xFE, pageCross 0x80 0x80, pageCross 0x80 0x7F, pageCross 0xFF 0xFF, pageCross 0x10 0x03] =
    [false, false, false, true, true, false, true, false, true, false] := by decide

/-- S10: the vector in memory, low byte first. -/
theorem test_S10_reset_vector :
    (resetFrom (writeBytes createMemory 0xFFFC [0x00, 0x80])).pc = 0x8000 := by decide

/-- The canonical form: storing 0x00 removes the entry, and entries stay in order. -/
theorem test_writes_keep_the_canonical_form :
    writeBytes (writeBytes createMemory 0x0011 [0x02, 0x03]) 0x0010 [0x01, 0x00] = [(0x10, 0x01), (0x12, 0x03)] := by
  decide

/-! ### Witnesses: for each statement with hypotheses, inputs that meet them -/

theorem witness_LdaImmediate : ∃ (s : State) (b : Byte) (pc1 : Word),
    Memory.byteAt s.mem pc1.toNat = b ∧ codeByte s 0 = 0xA9 ∧ codeByte s 1 = b :=
  ⟨machineAt 0xFFFF 0 0 [0xA9, 0x33] [], 0x33, 0x0000, by decide⟩

theorem witness_LdaZeroPage : ∃ (s : State) (b : Byte) (pc1 : Word),
    Memory.byteAt s.mem pc1.toNat = b ∧ codeByte s 0 = 0xA5 ∧ codeByte s 1 = b :=
  ⟨machineAt 0x0200 0 0 [0xA5, 0xFF] [(0x00FF, [0x80])], 0xFF, 0x0201, by decide⟩

theorem witness_LdaZeroPageX : ∃ (s : State) (b : Byte) (pc1 : Word),
    Memory.byteAt s.mem pc1.toNat = b ∧ decodeOpcode (codeByte s 0) = some .zeroPageX ∧ codeByte s 1 = b :=
  ⟨machineAt 0x0200 0x01 0 [0xB5, 0xFF] [(0x0000, [0x11])], 0xFF, 0x0201, by decide⟩

theorem witness_LdaAbsolute : ∃ (s : State) (lo hi : Byte) (pc1 : Word),
    Memory.byteAt s.mem pc1.toNat = lo ∧ Memory.byteAt s.mem ((pc1.toNat + 1) % 65536) = hi ∧
    decodeOpcode (codeByte s 0) = some .absolute ∧ codeByte s 1 = lo ∧ codeByte s 2 = hi :=
  ⟨machineAt 0xFFFE 0 0 [0xAD, 0x78, 0x56] [], 0x78, 0x56, 0xFFFF, by decide⟩

/-- One state that crosses a page and one that does not. -/
theorem witness_LdaAbsoluteX : ∃ (s s' : State) (lo lo' hi : Byte) (pc1 : Word),
    (Memory.byteAt s.mem pc1.toNat = lo ∧ Memory.byteAt s.mem ((pc1.toNat + 1) % 65536) = hi ∧
      decodeOpcode (codeByte s 0) = some .absoluteX ∧ codeByte s 1 = lo ∧ codeByte s 2 = hi ∧
      0x100 ≤ lo.toNat + s.x.toNat) ∧
    (decodeOpcode (codeByte s' 0) = some .absoluteX ∧ codeByte s' 1 = lo' ∧ codeByte s' 2 = hi ∧
      ¬0x100 ≤ lo'.toNat + s'.x.toNat) :=
  ⟨machineAt 0x0200 0x01 0 [0xBD, 0xFF, 0x20] [], machineAt 0x0200 0x01 0 [0xBD, 0xFE, 0x20] [],
    0xFF, 0xFE, 0x20, 0x0201, by decide⟩

theorem witness_LdaAbsoluteY : ∃ (s s' : State) (lo lo' hi : Byte) (pc1 : Word),
    (Memory.byteAt s.mem pc1.toNat = lo ∧ Memory.byteAt s.mem ((pc1.toNat + 1) % 65536) = hi ∧
      decodeOpcode (codeByte s 0) = some .absoluteY ∧ codeByte s 1 = lo ∧ codeByte s 2 = hi ∧
      0x100 ≤ lo.toNat + s.y.toNat) ∧
    (decodeOpcode (codeByte s' 0) = some .absoluteY ∧ codeByte s' 1 = lo' ∧ codeByte s' 2 = hi ∧
      ¬0x100 ≤ lo'.toNat + s'.y.toNat) :=
  ⟨machineAt 0x0200 0 0xFF [0xB9, 0x01, 0x30] [], machineAt 0x0200 0 0xFF [0xB9, 0x00, 0x30] [],
    0x01, 0x00, 0x30, 0x0201, by decide⟩

theorem witness_LdaIndirectX : ∃ (s : State) (b : Byte) (pc1 : Word),
    Memory.byteAt s.mem pc1.toNat = b ∧ decodeOpcode (codeByte s 0) = some .indirectX ∧ codeByte s 1 = b :=
  ⟨machineAt 0x0200 0x01 0 [0xA1, 0xFE] [(0x00FF, [0x34])], 0xFE, 0x0201, by decide⟩

theorem witness_LdaIndirectY : ∃ (s s' : State) (b : Byte) (pc1 : Word),
    (Memory.byteAt s.mem pc1.toNat = b ∧ decodeOpcode (codeByte s 0) = some .indirectY ∧ codeByte s 1 = b ∧
      0x100 ≤ (Memory.byteAt s.mem b.toNat).toNat + s.y.toNat) ∧
    (decodeOpcode (codeByte s' 0) = some .indirectY ∧ codeByte s' 1 = b ∧
      ¬0x100 ≤ (Memory.byteAt s'.mem b.toNat).toNat + s'.y.toNat) :=
  ⟨machineAt 0x0200 0 0x01 [0xB1, 0xFF] [(0x00FF, [0xFF])], machineAt 0x0200 0 0x00 [0xB1, 0xFF] [(0x00FF, [0xFF])],
    0xFF, 0x0201, by decide⟩

/-- A machine whose next step succeeds, with the highest A and PC. -/
def goodMachine : State := { machineAt 0xFFFF 0 0 [0xA9, 0x80] [] with a := 0xFF }

/-- A machine whose next step faults, at the top of memory. -/
def badMachine : State := machineAt 0xFFFF 0 0 [0x8D] []

theorem witness_successful_step : ∃ t, step goodMachine = .next t ∧ fetch goodMachine = .ok (.ldaImmediate 0x80) :=
  ⟨_, rfl, rfl⟩

theorem witness_faulting_step : ∃ opcode faultPc t,
    step badMachine = .fault (.unimplementedOpcode opcode faultPc t) ∧ decodeOpcode (codeByte badMachine 0) = none :=
  ⟨_, _, _, rfl, by decide⟩

theorem witness_StepRunsTheDecodedInstruction : ∃ rest,
    decode [codeByte goodMachine 0, codeByte goodMachine 1, codeByte goodMachine 2] =
      .ok (.ldaImmediate 0x80, rest) :=
  ⟨_, rfl⟩

theorem witness_decodable_and_undecodable :
    decodeOpcode (codeByte goodMachine 0) = some .immediate ∧ decodeOpcode (codeByte badMachine 0) = none := by decide

/-- Two states that differ in A, SP and every flag, of both outcomes. -/
theorem witness_StepIgnores :
    SameInputs goodMachine { goodMachine with
      a := 0, sp := 0, p := { c := true, z := true, i := true, d := true, b := true, v := true, n := true } } ∧
    SameInputs badMachine { badMachine with a := 0x12 } :=
  ⟨⟨rfl, rfl, rfl, rfl⟩, ⟨rfl, rfl, rfl, rfl⟩⟩

theorem witness_invariant : Inv goodMachine ∧ Inv badMachine := by
  refine ⟨⟨by decide, by decide⟩, ⟨by decide, by decide⟩⟩

theorem witness_WhatDecodes : decode [0xA9, 0x45, 0xEA] = .ok (.ldaImmediate 0x45, [0xEA]) := by rfl

theorem witness_OpcodeByteAloneDecides :
    decodeOpcode 0x00 = none ∧
    (decodeOpcode 0xAD = some .absolute ∧ Mode.absolute.operandBytes ≤ ([0x34, 0x12] : List Byte).length) ∧
    (decodeOpcode 0xAD = some .absolute ∧ ([0x34] : List Byte).length < Mode.absolute.operandBytes) := by decide

theorem witness_canonical_memory :
    Memory.wf goodMachine.mem = true ∧ goodMachine.mem ≠ [] ∧ (goodMachine.pc = 0xFFFF) := by decide

theorem witness_PlacedTableWord :
    Memory.wf State.reset.mem = true ∧ decodeTableWord 24 0x1234AD = some (.ldaAbsolute 0x34 0x12) := by decide

theorem witness_WordsInMemory : (0xFFFE : Word).toNat < 0xFFFF ∧ (2 : Nat) < 3 ∧ (0xFE : Byte) ≠ 0xFF := by decide

theorem witness_CanonicalMemories : ∃ m m' : Memory, Memory.wf m = true ∧ Memory.wf m' = true ∧
    m = writeBytes createMemory 0x0010 [0x01, 0x02] ∧
    m' = writeBytes (writeBytes createMemory 0x0011 [0x02]) 0x0010 [0x01] ∧
    ∀ n : Word, Memory.byteAt m n.toNat = Memory.byteAt m' n.toNat :=
  ⟨_, _, by decide, by decide, rfl, rfl, fun _ => rfl⟩

/-- Memories that differ outside the bytes a step reads, for a step that succeeds and one that faults
(`witness_bounds` has the outcomes). -/
theorem witness_StepDependsOnlyOnTheBytesItReads :
    (SameRegisters goodMachine (hostWrite 0x0001 [0x77] goodMachine) ∧
      (hostWrite 0x0001 [0x77] goodMachine).mem ≠ goodMachine.mem ∧
      ∀ n ∈ stepReads goodMachine,
        Memory.byteAt (hostWrite 0x0001 [0x77] goodMachine).mem n.toNat = Memory.byteAt goodMachine.mem n.toNat) ∧
    (SameRegisters badMachine (hostWrite 0x0000 [0x77] badMachine) ∧
      (hostWrite 0x0000 [0x77] badMachine).mem ≠ badMachine.mem ∧
      ∀ n ∈ stepReads badMachine,
        Memory.byteAt (hostWrite 0x0000 [0x77] badMachine).mem n.toNat = Memory.byteAt badMachine.mem n.toNat) :=
  ⟨⟨rfl, by decide, List.map_inj_left.1 (by decide)⟩, ⟨rfl, by decide, List.map_inj_left.1 (by decide)⟩⟩

theorem witness_bounds : (∃ n t, execute goodMachine = .ok n t) ∧
    ∃ opcode faultPc t, execute badMachine = .fault opcode faultPc t :=
  ⟨⟨_, _, rfl⟩, _, _, _, rfl⟩

/-- Every mode, and where the mode can cross a page both cases, at the edge (lo + index 0x100 and 0xFF), with the
totals of the table of spec 40 R86. -/
theorem witness_CycleTotals :
    [machineAt 0x0200 0 0 [0xA9, 0x45] [], machineAt 0x0200 0 0 [0xA5, 0x10] [],
      machineAt 0x0200 0xFF 0 [0xB5, 0xFF] [], machineAt 0x0200 0 0 [0xAD, 0x34, 0x12] [],
      machineAt 0x0200 0x01 0 [0xBD, 0xFE, 0x20] [], machineAt 0x0200 0x01 0 [0xBD, 0xFF, 0x20] [],
      machineAt 0x0200 0 0x01 [0xB9, 0xFE, 0x20] [], machineAt 0x0200 0 0x01 [0xB9, 0xFF, 0x20] [],
      machineAt 0x0200 0xFF 0 [0xA1, 0xFF] [],
      machineAt 0x0200 0 0x01 [0xB1, 0x44] [(0x0044, [0xFE])],
      machineAt 0x0200 0 0x01 [0xB1, 0x44] [(0x0044, [0xFF])]].map
        (fun s => (decodeOpcode (codeByte s 0), (outcomeOf s).map Seen.cycles)) =
    [(some .immediate, some 2), (some .zeroPage, some 3), (some .zeroPageX, some 4), (some .absolute, some 4),
      (some .absoluteX, some 4), (some .absoluteX, some 5), (some .absoluteY, some 4), (some .absoluteY, some 5),
      (some .indirectX, some 6), (some .indirectY, some 5), (some .indirectY, some 6)] := by decide

/-- Memories with one reset vector that differ elsewhere, in the NMI and IRQ vectors too. -/
theorem witness_reset_vectors : ∃ m m' : Memory, m ≠ m' ∧
    Memory.byteAt m' 0xFFFC = Memory.byteAt m 0xFFFC ∧ Memory.byteAt m' 0xFFFD = Memory.byteAt m 0xFFFD ∧
    (∀ n, n < 0xFFFA ∨ n = 0xFFFC ∨ n = 0xFFFD → Memory.byteAt m' n = Memory.byteAt m n) :=
  ⟨[(0xFFFC, 0x34)], [(0xFFFA, 0x01), (0xFFFC, 0x34), (0xFFFF, 0x02)], by decide, by decide, by decide, by
    intro n h
    simp only [byteAt_cons, byteAt_nil]
    rw [if_neg (by omega), if_neg (show ¬(0xFFFF = n) by omega)]⟩

/-- A session that writes over the top of memory, resets and takes one step that succeeds. -/
def shortSession : List HostOp :=
  [.write 0xFFFE [0xA9, 0x01], .write 0xFFFC [0xFE, 0xFF], .reset, .execute, .snapshot]

theorem witness_session_running : (∀ op ∈ shortSession, op.isPreset = false) ∧
    ∃ s, hostRun shortSession newSession = .ok (.running s) :=
  ⟨by decide, _, rfl⟩

theorem witness_session_faulted : (∀ op ∈ [HostOp.reset, .execute], op.isPreset = false) ∧
    ∃ s, hostRun [.reset, .execute] newSession = .ok (.faulted s) :=
  ⟨by decide, _, rfl⟩

/-- A running session whose next step succeeds. -/
theorem witness_NoPenalty : ∃ s n t, hostRun [.write 0x0000 [0xB1, 0x00], .reset] newSession = .ok (.running s) ∧
    execute s = .ok n t :=
  ⟨_, _, _, rfl, rfl⟩

theorem witness_no_write : ∃ σ' ans, hostStep .execute (.running goodMachine) = .ok (ans, σ') ∧
    ∀ address bytes, HostOp.execute ≠ .write address bytes :=
  ⟨_, _, rfl, fun _ _ => by simp⟩

theorem witness_EndedRunStaysEnded :
    (∀ op ∈ [HostOp.write 0x0000 [0xA9], .snapshot], op.beginsRun = false) ∧
    ∃ σ, hostRun [.write 0x0000 [0xA9], .snapshot] (.faulted badMachine) = .ok σ :=
  ⟨by decide, _, rfl⟩

end Sys2Proof.Tests
end

/-! SUPPORT. The laws of steps, memory and sessions that the statements about the state are settled with. -/

namespace Sys2Proof.Machine

/-! ### What a step leaves, in the statements' own terms -/

/-- Every instruction has 2 or 3 bytes (spec 30 R50). -/
theorem length_eq_two_or_three (i : Instr) : i.length = 2 ∨ i.length = 3 := by
  rw [length_eq]
  cases i.mode <;> simp [Mode.operandBytes]

/-- A successful step has fetched an instruction and loaded some byte. -/
theorem step_next_loaded {s t : State} (h : step s = .next t) :
    ∃ i v, fetch s = .ok i ∧ Loaded s t v i.length := by
  obtain ⟨i, v, hf, -, rfl⟩ := step_next h
  exact ⟨i, v, hf, loaded_afterLda s v i.length⟩

/-- A faulting step moves PC by one, and that is all it does to the state. -/
theorem step_fault_after {s t : State} {opcode : Byte} {faultPc : Word}
    (h : step s = .fault (.unimplementedOpcode opcode faultPc t)) :
    opcode = readByte s.mem s.pc ∧ faultPc = s.pc ∧ t = advancePc 1 s := by
  obtain ⟨-, hf⟩ := step_fault h
  simpa [raiseUnimplementedOpcode_eq] using hf

/-- A byte cannot be both 0 and at least 0x80, so the two flags taken from it are not both set (spec 41 R96). -/
theorem FlagsFromA.not_both {t : State} (h : FlagsFromA t) : ¬(t.p.z = true ∧ t.p.n = true) := by
  rw [h.z, h.n]
  omega

/-! ### What a step does not look at -/

theorem sameInputs_afterLda {s s' : State} (h : SameInputs s s') (n : Nat) (v : Byte) :
    SameInputs (afterLda n v s) (afterLda n v s') := by
  obtain ⟨hpc, hx, hy, hmem⟩ := h
  exact ⟨by simp [hpc], hx, hy, hmem⟩

theorem sameInputs_advancePc {s s' : State} (h : SameInputs s s') (n : Nat) :
    SameInputs (advancePc n s) (advancePc n s') := by
  obtain ⟨hpc, hx, hy, hmem⟩ := h
  exact ⟨by simp [hpc], hx, hy, hmem⟩

theorem fetch_eq_of_sameInputs {s s' : State} (h : SameInputs s s') : fetch s' = fetch s := by
  rw [fetch, fetch, h.pc, h.mem]

/-- An instruction loads the same byte at two states that differ at most in A, SP and the flags. -/
theorem exec_of_sameInputs {s s' : State} (h : SameInputs s s') (i : Instr) :
    ∃ v, exec i s = .next (afterLda i.length v s) ∧ exec i s' = .next (afterLda i.length v s') := by
  obtain ⟨pc, sp, a, x, y, p, mem⟩ := s
  obtain ⟨pc', sp', a', x', y', p', mem'⟩ := s'
  obtain ⟨rfl, rfl, rfl, rfl⟩ := h
  cases i <;> exact ⟨_, rfl, rfl⟩

/-- The outcomes of the step at two states that differ at most in A, SP and the flags: both load the same byte, or
both fault with the same report. -/
theorem step_of_sameInputs {s s' : State} (h : SameInputs s s') :
    (∃ n v, step s = .next (afterLda n v s) ∧ step s' = .next (afterLda n v s')) ∨
    (∃ opcode faultPc, step s = .fault (.unimplementedOpcode opcode faultPc (advancePc 1 s)) ∧
      step s' = .fault (.unimplementedOpcode opcode faultPc (advancePc 1 s'))) := by
  have hf := fetch_eq_of_sameInputs h
  cases hs : fetch s with
  | ok i =>
    obtain ⟨v, hv, hv'⟩ := exec_of_sameInputs h i
    exact .inl ⟨i.length, v, by rw [step, hs, ← hv], by rw [step, hf, hs, ← hv']⟩
  | error e =>
    refine .inr ⟨readByte s.mem s.pc, s.pc, by rw [step, hs, raiseUnimplementedOpcode_eq], ?_⟩
    rw [step, hf, hs, raiseUnimplementedOpcode_eq, h.pc, h.mem]

/-! ### The canonical form of memory -/

/-- The first entry of a canonical memory is the first byte that is not 0x00. -/
theorem head_le_of_byteAt_ne {low a n : Nat} {v : Byte} {m : Memory}
    (h : Memory.wfFrom low ((a, v) :: m) = true) (hn : Memory.byteAt ((a, v) :: m) n ≠ 0) : a ≤ n := by
  obtain ⟨-, rest⟩ := (wfFrom_cons ..).1 h
  by_contra hlt
  exact hn (byteAt_below ((wfFrom_cons a ..).2 ⟨le_rfl, rest⟩) (by omega))

/-- A canonical memory is determined by the bytes of the address space. -/
theorem eq_of_byteAt_eq {low : Nat} {m m' : Memory} (h : Memory.wfFrom low m = true)
    (h' : Memory.wfFrom low m' = true)
    (same : ∀ n < 65536, Memory.byteAt m n = Memory.byteAt m' n) : m = m' := by
  induction m generalizing low m' with
  | nil =>
    cases m' with
    | nil => rfl
    | cons c' m' =>
      obtain ⟨a', w⟩ := c'
      obtain ⟨-, ha', hw, -⟩ := (wfFrom_cons ..).1 h'
      exact absurd (same a' ha').symm (by simpa using hw)
  | cons c m ih =>
    obtain ⟨a, v⟩ := c
    obtain ⟨-, ha, hv, htail⟩ := (wfFrom_cons ..).1 h
    have hread := same a ha
    cases m' with
    | nil => exact absurd hread (by simpa using hv)
    | cons c' m' =>
      obtain ⟨a', w⟩ := c'
      obtain ⟨-, ha', hw, htail'⟩ := (wfFrom_cons ..).1 h'
      have hle : a' ≤ a := head_le_of_byteAt_ne h' (by rw [← hread]; simpa using hv)
      have hge : a ≤ a' := head_le_of_byteAt_ne h (by rw [same a' ha']; simpa using hw)
      obtain rfl : a = a' := by omega
      obtain rfl : v = w := by simpa using hread
      congr 1
      refine ih htail htail' fun n hn => ?_
      obtain hlt | hgt := Nat.lt_or_ge n (a + 1)
      · rw [byteAt_below htail hlt, byteAt_below htail' hlt]
      · have hne : a ≠ n := by omega
        simpa [hne] using same n hn

/-- A host write leaves the bytes that the host thinks it leaves (spec 70 R151). -/
theorem readByte_writeBytes {m : Memory} (h : Memory.wf m = true) (address : Word) (bytes : List Byte) :
    readByte (writeBytes m address bytes) = overlay (readByte m) address bytes := by
  induction bytes generalizing m address with
  | nil => rfl
  | cons v rest ih =>
    have hset : readByte (Memory.setByte m address.toNat v) = fun n => if n = address then v else readByte m n :=
      funext fun n => readByte_setByte h address n v
    rw [writeBytes_cons, ih (wf_setByte h v address.isLt), hset, overlay]

/-! ### Sessions -/

/-- What each operation of a sequence keeps, the whole sequence keeps. -/
theorem hostRun_keeps {P : Session → Prop} {ops : List HostOp} {σ σ' : Session}
    (keep : ∀ op ∈ ops, ∀ σ ans τ, P σ → hostStep op σ = .ok (ans, τ) → P τ)
    (start : P σ) (h : hostRun ops σ = .ok σ') : P σ' := by
  induction ops generalizing σ with
  | nil => cases h; exact start
  | cons op ops ih =>
    obtain ⟨ans, τ, hop, hrest⟩ := hostRun_cons.1 h
    obtain ⟨keepOp, keepOps⟩ := List.forall_mem_cons.1 keep
    exact ih keepOps (keepOp σ ans τ start hop) hrest

theorem hostStep_mem_of_not_write {op : HostOp} {σ σ' : Session} {ans : HostAnswer}
    (h : hostStep op σ = .ok (ans, σ')) (hw : ∀ address bytes, op ≠ .write address bytes) : σ'.mem = σ.mem := by
  have hmem := hostStep_mem h
  cases op with
  | write address bytes => exact absurd rfl (hw address bytes)
  | reset | execute | snapshot | preset => exact hmem

/-- Every operation of the host keeps the canonical form of memory. -/
theorem wf_hostStep {op : HostOp} {σ σ' : Session} {ans : HostAnswer} (hwf : Memory.wf σ.mem = true)
    (h : hostStep op σ = .ok (ans, σ')) : Memory.wf σ'.mem = true := by
  have hmem := hostStep_mem h
  cases op with
  | write address bytes => rw [hmem]; exact wf_writeBytes hwf address bytes
  | reset | execute | snapshot | preset => rw [hmem]; exact hwf

/-- The bytes expected after a sequence are those expected after its rest, begun where its first operation ends. -/
theorem expectedBytes_cons (f : ByteMap) (op : HostOp) (ops : List HostOp) :
    expectedBytes f (op :: ops) = expectedBytes (expectedBytes f [op]) ops := by cases op <;> rfl

/-- One operation leaves the bytes that the host expects of it. -/
theorem readByte_hostStep {op : HostOp} {σ σ' : Session} {ans : HostAnswer} (hwf : Memory.wf σ.mem = true)
    (h : hostStep op σ = .ok (ans, σ')) : readByte σ'.mem = expectedBytes (readByte σ.mem) [op] := by
  have hmem := hostStep_mem h
  cases op with
  | write address bytes => rw [hmem]; exact readByte_writeBytes hwf address bytes
  | reset | execute | snapshot | preset => rw [hmem]; rfl

/-- A sequence of operations leaves the bytes that the host expects of it. -/
theorem readByte_hostRun {ops : List HostOp} {σ σ' : Session} (hwf : Memory.wf σ.mem = true)
    (h : hostRun ops σ = .ok σ') : readByte σ'.mem = expectedBytes (readByte σ.mem) ops := by
  induction ops generalizing σ with
  | nil => cases h; rfl
  | cons op ops ih =>
    obtain ⟨ans, τ, hop, hrest⟩ := hostRun_cons.1 h
    rw [ih (wf_hostStep hwf hop) hrest, readByte_hostStep hwf hop, ← expectedBytes_cons]

/-! ### The registers no instruction writes -/

theorem KeepsInertRegisters.trans {s t u : State} (h : KeepsInertRegisters s t) (h' : KeepsInertRegisters t u) :
    KeepsInertRegisters s u :=
  ⟨h'.x.trans h.x, h'.y.trans h.y, h'.sp.trans h.sp, h'.c.trans h.c, h'.i.trans h.i, h'.d.trans h.d,
    h'.b.trans h.b, h'.v.trans h.v⟩

theorem hostWrite_inert (address : Word) (bytes : List Byte) (s : State) :
    KeepsInertRegisters s (hostWrite address bytes s) :=
  ⟨rfl, rfl, rfl, rfl, rfl, rfl, rfl, rfl⟩

theorem resetFrom_inert (m : Memory) : KeepsInertRegisters State.reset (resetFrom m) :=
  ⟨rfl, rfl, rfl, rfl, rfl, rfl, rfl, rfl⟩

/-- Any machine before the host has the registers no instruction writes at their reset values. -/
def Session.InertAtReset (σ : Session) : Prop :=
  ∀ s, σ = .running s ∨ σ = .faulted s → KeepsInertRegisters State.reset s

@[simp] theorem inertAtReset_created (m : Memory) : (Session.created m).InertAtReset := by
  simp [Session.InertAtReset]

@[simp] theorem inertAtReset_running (s : State) :
    (Session.running s).InertAtReset ↔ KeepsInertRegisters State.reset s := by
  simp [Session.InertAtReset]

@[simp] theorem inertAtReset_faulted (s : State) :
    (Session.faulted s).InertAtReset ↔ KeepsInertRegisters State.reset s := by
  simp [Session.InertAtReset]

/-- `execute` keeps the registers no instruction writes at their reset values, whatever its outcome. -/
theorem inertAtReset_execute {s : State} (h : KeepsInertRegisters State.reset s) :
    (afterExecute (execute s)).2.InertAtReset := by
  cases ho : decodeOpcode (readByte s.mem s.pc) with
  | none =>
    rw [execute_of_none ho]
    exact (inertAtReset_faulted _).2 (h.trans (onlyPcMoved_advancePc s).inert)
  | some m =>
    rw [execute_of_some ho]
    exact (inertAtReset_running _).2 (h.trans (loaded_afterLda s _ _).inert)

/-- Every operation but a state_preset keeps the registers no instruction writes at their reset values. -/
theorem inertAtReset_hostStep {op : HostOp} {σ σ' : Session} {ans : HostAnswer} (hp : op.isPreset = false)
    (hσ : σ.InertAtReset) (h : hostStep op σ = .ok (ans, σ')) : σ'.InertAtReset := by
  cases op with
  | write address bytes =>
    cases σ with
    | created m => cases h; simp
    | running s => cases h; simpa using ((inertAtReset_running s).1 hσ).trans (hostWrite_inert address bytes s)
    | faulted s => cases h; simpa using ((inertAtReset_faulted s).1 hσ).trans (hostWrite_inert address bytes s)
  | reset => cases h; simpa using resetFrom_inert σ.mem
  | execute =>
    cases σ with
    | created m => cases h
    | running s =>
      have hexec := inertAtReset_execute ((inertAtReset_running s).1 hσ)
      rw [hostStep, Except.ok.injEq] at h
      rwa [h] at hexec
    | faulted s => cases h
  | snapshot =>
    cases σ with
    | created m => cases h
    | running s => cases h; exact hσ
    | faulted s => cases h; exact hσ
  | preset r => cases hp

/-- In a session without state_preset the registers no instruction writes hold their reset values. -/
theorem inertAtReset_hostRun {ops : List HostOp} {σ : Session} (hp : ∀ op ∈ ops, op.isPreset = false)
    (h : hostRun ops newSession = .ok σ) : σ.InertAtReset :=
  hostRun_keeps (P := Session.InertAtReset) (fun op hop _ _ _ => inertAtReset_hostStep (hp op hop))
    (inertAtReset_created createMemory) h

/-! ### The cycles where the index registers are 0 -/

/-- Adding an index of 0 crosses no page. -/
@[simp] theorem penaltyOf_zero (base : Word) : penaltyOf base 0#8 = 0 := by
  have hlow := (lowByte base).isLt
  have hno : ¬pageCross (lowByte base) 0#8 = true := by
    rw [pageCross_iff, BitVec.toNat_ofNat]
    omega
  rw [penaltyOf_eq, if_neg hno]

theorem cycles_resolve_zero (mode : Mode) (m : Memory) (pc1 : Word) :
    1 + (resolve mode m pc1 0 0).listed + (resolve mode m pc1 0 0).penalty = totalWithoutCrossing mode := by
  cases mode <;> simp [resolve, totalWithoutCrossing]

/-- What a successful `execute` reports: the resolver's count for the mode that the opcode byte selects. -/
theorem execute_ok {s t : State} {n : Nat} (h : execute s = .ok n t) :
    ∃ mode, decodeOpcode (readByte s.mem s.pc) = some mode ∧
      n = 1 + (resolve mode s.mem (s.pc + 1#16) s.x s.y).listed +
        (resolve mode s.mem (s.pc + 1#16) s.x s.y).penalty := by
  cases ho : decodeOpcode (readByte s.mem s.pc) with
  | none => rw [execute_of_none ho] at h; cases h
  | some mode =>
    rw [execute_of_some ho] at h
    obtain ⟨rfl, -⟩ := StepResult.ok.inj h
    exact ⟨mode, rfl, rfl⟩

end Sys2Proof.Machine

/-! The statements about the state, settled. -/

namespace Sys2Proof.Machine

/-- Settles O11: the flags are those of the loaded byte, which the step's inversion lemma gives. -/
theorem everySuccessfulStepSetsZAndNFromA : Obligations.EverySuccessfulStepSetsZAndNFromA := by
  refine ⟨fun v => ⟨flagZ_iff v, flagN_iff v⟩, fun s t h => ?_⟩
  obtain ⟨i, v, -, loaded⟩ := step_next_loaded h
  have inert := loaded.inert
  exact ⟨loaded.flags, loaded.flags.not_both, inert.c, inert.i, inert.d, inert.b, inert.v⟩

/-- Settles O12, from what a successful and a faulting step leave. -/
theorem noStepChangesTheFiveInertFlags : Obligations.NoStepChangesTheFiveInertFlags := by
  refine fun s => ⟨fun t h => ?_, fun opcode faultPc t h => ?_⟩
  · obtain ⟨i, v, -, loaded⟩ := step_next_loaded h
    have inert := loaded.inert
    exact ⟨inert.c, inert.i, inert.d, inert.b, inert.v⟩
  · obtain ⟨-, -, rfl⟩ := step_fault_after h
    rfl

/-- Settles O13, from what a successful and a faulting step leave. -/
theorem pcAdvancesByTheInstructionLength : Obligations.PcAdvancesByTheInstructionLength := by
  refine fun s => ⟨fun t h => ?_, fun opcode faultPc t h => ?_⟩
  · obtain ⟨i, v, hf, loaded⟩ := step_next_loaded h
    exact ⟨i, hf, length_eq_two_or_three i, loaded.pc⟩
  · obtain ⟨-, -, rfl⟩ := step_fault_after h
    exact (onlyPcMoved_advancePc s).pc

/-- Settles O14: the two states fetch the same instruction, which loads the same byte at both. -/
theorem stepIgnoresOldAccumulatorStackPointerAndFlags :
    Obligations.StepIgnoresOldAccumulatorStackPointerAndFlags := by
  intro s s' same
  obtain ⟨n, v, hs, hs'⟩ | ⟨opcode, faultPc, hs, hs'⟩ := step_of_sameInputs same
  · refine ⟨fun t h => ?_, fun _ _ t h => by rw [hs] at h; cases h⟩
    obtain rfl := Host.Outcome.next.inj (hs.symm.trans h)
    have after := sameInputs_afterLda same n v
    exact ⟨_, hs', after.pc, rfl, rfl, rfl, after⟩
  · refine ⟨fun t h => (by rw [hs] at h; cases h), fun _ _ t h => ?_⟩
    obtain ⟨rfl, rfl, rfl⟩ := Fault.unimplementedOpcode.inj (Host.Outcome.fault.inj (hs.symm.trans h))
    exact ⟨_, hs', sameInputs_advancePc same 1, rfl, rfl⟩

/-- Settles O31, by the induction along both lists of `eq_of_byteAt_eq`. -/
theorem canonicalMemoriesThatReadAlikeAreEqual : Obligations.CanonicalMemoriesThatReadAlikeAreEqual := by
  intro m m' h h' same
  refine eq_of_byteAt_eq h h' fun n hn => ?_
  simpa [Nat.mod_eq_of_lt hn] using same (BitVec.ofNat 16 n)

/-- Settles O43, by induction on the operations with the canonical form carried along. -/
theorem memoryIsTheLatestHostWrites : Obligations.MemoryIsTheLatestHostWrites := by
  refine ⟨fun ops σ h n => ?_, fun op σ σ' ans h hw n => ?_⟩
  · exact congrFun (readByte_hostRun (σ := newSession) wf_createMemory h) n
  · rw [hostStep_mem_of_not_write h hw]

/-- Settles O45: every operation but a state_preset keeps these registers at their reset values. -/
theorem unwrittenRegistersKeepTheirResetValues : Obligations.UnwrittenRegistersKeepTheirResetValues := by
  intro ops σ hp h s hs
  obtain ⟨hx, hy, hsp, hc, hi, hd, hb, hv⟩ := inertAtReset_hostRun hp h s hs
  exact ⟨hx, hy, hsp, hc, hi, hd, hb, hv⟩

/-- Settles O46: X and Y still hold 0, and an index of 0 crosses no page. -/
theorem noPenaltyWithoutPreset : Obligations.NoPenaltyWithoutPreset := by
  intro ops s hp h n t hexec
  have inert := inertAtReset_hostRun hp h s (.inl rfl)
  have hx : s.x = 0 := inert.x
  have hy : s.y = 0 := inert.y
  obtain ⟨mode, hm, hn⟩ := execute_ok hexec
  rw [hx, hy, cycles_resolve_zero] at hn
  exact ⟨mode, by rw [codeByte_zero, hm], hn⟩

/-- Settles O16: the created memory is canonical, and reset clears both flags. -/
theorem resetMeetsTheInvariant : Obligations.ResetMeetsTheInvariant :=
  ⟨reset_mem_wf, by simp [State.reset]⟩

/-- Settles O38, mode by mode: the unread index does not stand in the resolver's outputs. -/
theorem eachModeReadsOnlyItsIndexRegister : Obligations.EachModeReadsOnlyItsIndexRegister := by
  intro m pc1 x y x' y'
  simp only [List.forall_mem_cons, List.not_mem_nil, false_imp_iff, implies_true, and_true]
  exact ⟨⟨rfl, rfl, rfl⟩, ⟨rfl, rfl, rfl⟩, rfl, rfl⟩

/-- Settles O40: reset reads the vector 0x0000 from a created memory, and every other field is fixed. -/
theorem stateAfterResetIsTheTable : Obligations.StateAfterResetIsTheTable :=
  ⟨rfl, rfl, rfl, rfl, rfl, rfl, rfl, fun n => byteAt_nil n.toNat, resetFrom_mem⟩

end Sys2Proof.Machine

/-! SUPPORT. The laws of memory reads and writes that the statements about memory are settled with. -/

namespace Sys2Proof.Machine

/-! ### Consecutive bytes, and words as numbers -/

theorem bytesFrom_succ (m : Memory) (address : Word) (n : Nat) :
    bytesFrom m address (n + 1) = readByte m address :: bytesFrom m (address + 1#16) n := rfl

theorem readByte_add (m : Memory) (address : Word) (k : Nat) :
    readByte m (address + BitVec.ofNat 16 k) = Memory.byteAt m ((address.toNat + k) % 65536) := by
  simp [readByte, BitVec.toNat_add]

@[simp] theorem readByte_zext16 (m : Memory) (b : Byte) : readByte m (zext16 b) = Memory.byteAt m b.toNat := by
  rw [readByte, zext16_toNat]

/-- Byte `k` of the bytes from an address up is the byte `k` places after it. -/
theorem bytesFrom_getElem? (m : Memory) (address : Word) {n k : Nat} (hk : k < n) :
    (bytesFrom m address n)[k]? = some (readByte m (address + BitVec.ofNat 16 k)) := by
  induction n generalizing address k with
  | zero => omega
  | succ n ih =>
    cases k with
    | zero => simp [bytesFrom_succ]
    | succ k =>
      rw [bytesFrom_succ, List.getElem?_cons_succ, ih _ (by omega), BitVec.add_assoc, ← BitVec.ofNat_add,
        Nat.add_comm 1]

/-- The word at an address, its high byte from the next address modulo 65536 (spec 20 R31). -/
theorem readWord_toNat (m : Memory) (address : Word) :
    (readWord m address).toNat =
      (Memory.byteAt m address.toNat).toNat + 256 * (Memory.byteAt m ((address.toNat + 1) % 65536)).toNat := by
  rw [readWord, wordOf_toNat, readByte_add, readByte]

/-- The word at a zero-page pointer, its high byte from the next address modulo 256 (spec 20 R32). -/
theorem readWordZeroPageWrap_toNat (m : Memory) (p : Byte) :
    (readWordZeroPageWrap m p).toNat =
      (Memory.byteAt m p.toNat).toNat + 256 * (Memory.byteAt m ((p.toNat + 1) % 256)).toNat := by
  simp [readWordZeroPageWrap, BitVec.toNat_add]

/-! ### Reading back what the host wrote -/

/-- A host write leaves every address it does not cover as it was. -/
theorem readByte_writeBytes_of_uncovered {m : Memory} (h : Memory.wf m = true) {address n : Word} {bytes : List Byte}
    (hn : ∀ k < bytes.length, n ≠ address + BitVec.ofNat 16 k) :
    readByte (writeBytes m address bytes) n = readByte m n := by
  induction bytes generalizing m address with
  | nil => rfl
  | cons v rest ih =>
    have hfirst : n ≠ address := by simpa using hn 0 (by simp)
    have hrest : ∀ k < rest.length, n ≠ address + 1#16 + BitVec.ofNat 16 k := fun k hk => by
      simpa [BitVec.add_assoc, ← BitVec.ofNat_add, Nat.add_comm 1] using hn (k + 1) (by simpa using hk)
    rw [writeBytes_cons, ih (wf_setByte h v address.isLt) hrest, readByte_setByte h, if_neg hfirst]

/-- A host write that fits the address space reads back whole, wherever it begins. -/
theorem bytesFrom_writeBytes {m : Memory} (h : Memory.wf m = true) (address : Word) {bytes : List Byte}
    (hl : bytes.length ≤ 65536) : bytesFrom (writeBytes m address bytes) address bytes.length = bytes := by
  induction bytes generalizing m address with
  | nil => rfl
  | cons v rest ih =>
    rw [List.length_cons] at hl
    have hwf := wf_setByte h v address.isLt
    have hlater : ∀ k < rest.length, address ≠ address + 1#16 + BitVec.ofNat 16 k := fun k hk => by
      bv_omega
    rw [List.length_cons, writeBytes_cons, bytesFrom_succ, ih hwf _ (by omega),
      readByte_writeBytes_of_uncovered hwf hlater, readByte_setByte h, if_pos rfl]

/-- Where the bytes at PC are an instruction's encoding, the fetch gives that instruction. -/
theorem fetch_of_encode {s : State} {i : Instr} (h : bytesFrom s.mem s.pc (encode i).length = encode i) :
    fetch s = .ok i := by
  rw [encode_eq, List.length_cons, operands_length, bytesFrom_succ] at h
  obtain ⟨hopcode, hoperands⟩ := List.cons.inj h
  exact fetch_of_operands (by rw [hopcode, decodeOpcode_opcode]) hoperands.symm

theorem encode_length_le (i : Instr) : (encode i).length ≤ 3 := by cases i <;> simp [encode_eq, Instr.operands]

/-! ### The reads that a step depends on -/

theorem readWord_congr {m m' : Memory} {address : Word} (hlow : readByte m' address = readByte m address)
    (hhigh : readByte m' (address + 1#16) = readByte m (address + 1#16)) :
    readWord m' address = readWord m address := by
  rw [readWord, readWord, hlow, hhigh]

theorem readWordZeroPageWrap_congr {m m' : Memory} {p : Byte} (hlow : readByte m' (zext16 p) = readByte m (zext16 p))
    (hhigh : readByte m' (zext16 (p + 1#8)) = readByte m (zext16 (p + 1#8))) :
    readWordZeroPageWrap m' p = readWordZeroPageWrap m p := by
  rw [readWordZeroPageWrap, readWordZeroPageWrap, hlow, hhigh]

/-- Memories that agree on the resolver's reads give it the same reads and the same outputs (spec 20 R37). -/
theorem resolve_congr {mode : Mode} {m m' : Memory} {pc1 : Word} {x y : Byte}
    (same : ∀ n ∈ resolveReads mode m pc1 x y, readByte m' n = readByte m n) :
    resolveReads mode m' pc1 x y = resolveReads mode m pc1 x y ∧ resolve mode m' pc1 x y = resolve mode m pc1 x y := by
  cases mode <;> simp only [resolveReads, List.forall_mem_cons, List.not_mem_nil, false_imp_iff, implies_true,
    and_true] at same
  case immediate => simp [resolveReads, resolve, same]
  case zeroPage | zeroPageX =>
    obtain ⟨hb, hdata⟩ := same
    simp [resolveReads, resolve, hb, hdata]
  case absolute | absoluteX | absoluteY =>
    obtain ⟨hlo, hhi, hdata⟩ := same
    simp [resolveReads, resolve, readWord_congr hlo hhi, hdata]
  case indirectX =>
    obtain ⟨hb, hlo, hhi, hdata⟩ := same
    have hptr : eaIndirectX m' (readByte m pc1) x = eaIndirectX m (readByte m pc1) x :=
      readWordZeroPageWrap_congr hlo hhi
    simp [resolveReads, resolve, hb, hptr, hdata]
  case indirectY =>
    obtain ⟨hb, hlo, hhi, hdata⟩ := same
    have hptr : baseIndirectY m' (readByte m pc1) = baseIndirectY m (readByte m pc1) :=
      readWordZeroPageWrap_congr hlo hhi
    simp [resolveReads, resolve, hb, hptr, hdata]

theorem pc_mem_stepReads (s : State) : s.pc ∈ stepReads s := by
  cases ho : decodeOpcode (readByte s.mem s.pc) with
  | none => simp [stepReads_of_none ho]
  | some mode => simp [stepReads_of_some ho]

/-- Two states have the same registers exactly when one is the other with some memory. -/
theorem sameRegisters_iff {s s' : State} : SameRegisters s s' ↔ s' = { s with mem := s'.mem } := by
  obtain ⟨pc, sp, a, x, y, p, mem⟩ := s
  obtain ⟨pc', sp', a', x', y', p', mem'⟩ := s'
  simp [SameRegisters, snapshot]

/-! ### Cycle and read counts -/

theorem penaltyOf_le_one (base : Word) (index : Byte) : penaltyOf base index ≤ 1 := by
  rw [penaltyOf_eq]
  split <;> decide

/-- The resolver's cycles and the opcode fetch are 2 to 6 together (spec 40 R86, 70 R166). -/
theorem cycles_resolve_bounds (mode : Mode) (m : Memory) (pc1 : Word) (x y : Byte) :
    2 ≤ 1 + (resolve mode m pc1 x y).listed + (resolve mode m pc1 x y).penalty ∧
      1 + (resolve mode m pc1 x y).listed + (resolve mode m pc1 x y).penalty ≤ 6 := by
  cases mode
  case absoluteX =>
    have := penaltyOf_le_one (readWord m pc1) x
    simp only [resolve]; omega
  case absoluteY =>
    have := penaltyOf_le_one (readWord m pc1) y
    simp only [resolve]; omega
  case indirectY =>
    have := penaltyOf_le_one (baseIndirectY m (readByte m pc1)) y
    simp only [resolve]; omega
  all_goals simp [resolve]

/-- The resolver's reads and the opcode byte are as many as the mode says (spec 20 R38). -/
theorem resolveReads_length (mode : Mode) (m : Memory) (pc1 : Word) (x y : Byte) :
    1 + (resolveReads mode m pc1 x y).length = readCount mode := by
  cases mode <;> rfl

theorem readCount_bounds (mode : Mode) : 2 ≤ readCount mode ∧ readCount mode ≤ 5 := by
  cases mode <;> decide

/-- `execute` faults only on an unimplemented opcode byte (spec 60 R120). -/
theorem execute_fault {s t : State} {opcode : Byte} {faultPc : Word} (h : execute s = .fault opcode faultPc t) :
    decodeOpcode (readByte s.mem s.pc) = none := by
  cases ho : decodeOpcode (readByte s.mem s.pc) with
  | none => rfl
  | some mode => rw [execute_of_some ho] at h; cases h

/-! ### The address map -/

theorem regionOf_of_zeroPage {n : Word} (h : n.toNat < 256) : regionOf n = .zeroPage :=
  if_pos (Nat.le_of_lt_succ h)

end Sys2Proof.Machine

/-! The statements about memory, settled. -/

namespace Sys2Proof.Machine

/-- Settles O24: the bytes just written read back at PC, and they are the instruction's encoding. -/
theorem hostWrittenInstructionRunsNext : Obligations.HostWrittenInstructionRunsNext := by
  intro s i hwf
  have hl := encode_length_le i
  have hfetch : fetch (hostWrite s.pc (encode i) s) = .ok i :=
    fetch_of_encode (bytesFrom_writeBytes hwf s.pc (by omega))
  rw [step, hfetch]

/-- Settles O32: the opcode byte is read, so both states take the same outcome; where it selects a mode, the
resolver's outputs are fixed by its own reads. -/
theorem stepDependsOnlyOnTheBytesItReads : Obligations.StepDependsOnlyOnTheBytesItReads := by
  intro s s' regs same
  obtain ⟨m', rfl⟩ : ∃ m', s' = { s with mem := m' } := ⟨_, sameRegisters_iff.1 regs⟩
  have hopcode : readByte m' s.pc = readByte s.mem s.pc := same s.pc (pc_mem_stepReads s)
  cases ho : decodeOpcode (readByte s.mem s.pc) with
  | none =>
    have ho' : decodeOpcode (readByte m' s.pc) = none := by rw [hopcode, ho]
    rw [stepReads_of_none ho, stepReads_of_none ho', execute_of_none ho, execute_of_none ho', hopcode]
    refine ⟨rfl, fun _ _ h => (by cases h), fun _ _ t h => ?_⟩
    obtain ⟨rfl, rfl, rfl⟩ := StepResult.fault.inj h
    exact ⟨_, rfl, rfl⟩
  | some mode =>
    have ho' : decodeOpcode (readByte m' s.pc) = some mode := by rw [hopcode, ho]
    rw [stepReads_of_some ho] at same
    obtain ⟨hreads, hres⟩ := resolve_congr (List.forall_mem_cons.1 same).2
    rw [stepReads_of_some ho, stepReads_of_some ho', execute_of_some ho, execute_of_some ho', hreads, hres]
    refine ⟨rfl, fun _ t h => ?_, fun _ _ _ h => (by cases h)⟩
    obtain ⟨rfl, rfl⟩ := StepResult.ok.inj h
    exact ⟨_, rfl, rfl⟩

/-- Settles O37, from the counts of the mode that the opcode byte selects. -/
theorem cyclesAndReadsAreBounded : Obligations.CyclesAndReadsAreBounded := by
  refine fun s => ⟨fun n t h => ?_, fun opcode faultPc t h => ?_⟩
  · obtain ⟨mode, ho, rfl⟩ := execute_ok h
    obtain ⟨hmin, hmax⟩ := cycles_resolve_bounds mode s.mem (s.pc + 1#16) s.x s.y
    refine ⟨hmin, hmax, mode, by rw [codeByte_zero, ho], ?_, readCount_bounds mode⟩
    rw [stepReads_of_some ho, List.length_cons, Nat.add_comm, resolveReads_length]
  · rw [stepReads_of_none (execute_fault h), List.length_singleton]

/-- Settles O26, from the two word reads as numbers and the bytes of a fetch one by one. -/
theorem wordsInMemoryAreLittleEndian : Obligations.WordsInMemoryAreLittleEndian := by
  refine fun m => ⟨fun address h => ?_, readWordZeroPageWrap_toNat m, ?_, fun address n k hk => ?_⟩
  · rw [readWord_toNat, Nat.mod_eq_of_lt (by omega)]
  · exact readWord_toNat m Config.resetVector
  · rw [bytesFrom_getElem? m address hk, readByte_add]

/-- Settles O27: below 0xFF the address after a pointer is the same modulo 256 and modulo 65536. -/
theorem wordReadsWrapAtTheTop : Obligations.WordReadsWrapAtTheTop := by
  refine fun m => ⟨readWord_toNat m 0xFFFF, readWordZeroPageWrap_toNat m 0xFF, fun p hp => ?_⟩
  have hp' : p.toNat < 255 := by bv_omega
  apply BitVec.eq_of_toNat_eq
  rw [readWordZeroPageWrap_toNat, readWord_toNat, BitVec.toNat_ofNat, Nat.mod_eq_of_lt (by omega),
    Nat.mod_eq_of_lt (by omega), Nat.mod_eq_of_lt (by omega)]

/-- Settles O28, from the sums as numbers. -/
theorem addressSumsWrapInTheirSpace : Obligations.AddressSumsWrapInTheirSpace := by
  refine ⟨fun b => ?_, fun b i => ?_, eaIndexed_toNat, rfl⟩
  · have hb : (eaZeroPage b).toNat = b.toNat := zext16_toNat b
    exact ⟨hb, regionOf_of_zeroPage (by rw [hb]; exact b.isLt)⟩
  · have hsum := eaZeroPageIndexed_toNat b i
    exact ⟨hsum, regionOf_of_zeroPage (by omega)⟩

/-- Settles O29, branch by branch of the map, the vector addresses read as numbers. -/
theorem regionsFollowTheAddressMap : Obligations.RegionsFollowTheAddressMap := by
  intro n
  have hn := n.isLt
  simp only [← BitVec.toNat_inj, BitVec.reduceToNat]
  unfold regionOf
  split_ifs <;> simp only [true_iff, false_iff] <;> omega

end Sys2Proof.Machine

/-! SUPPORT. What the decoder answers, one law per outcome, and what it has to do with the encoder. -/

namespace Sys2Proof

/-! ### The three outcomes of decoding a sequence that has an opcode byte -/

/-- With fewer bytes than the mode takes, no operands are found. -/
theorem takeOperands_of_short {m : Mode} {bytes : List Byte} (h : bytes.length < m.operandBytes) :
    takeOperands m bytes = none := by
  match bytes with
  | [] => cases m <;> rfl
  | [_] =>
    cases m
    case absolute | absoluteX | absoluteY => rfl
    all_goals simp [Mode.operandBytes] at h
  | _ :: _ :: _ => cases m <;> simp [Mode.operandBytes] at h

theorem decode_of_none {o : Byte} (ho : decodeOpcode o = none) (rest : List Byte) :
    decode (o :: rest) = .error (.unimplementedOpcode o) := by
  simp only [decode, ho]

theorem decode_of_short {o : Byte} {m : Mode} {rest : List Byte} (ho : decodeOpcode o = some m)
    (hl : rest.length < m.operandBytes) : decode (o :: rest) = .error (.missingOperand m) := by
  simp only [decode, ho, takeOperands_of_short hl]

/-- An implemented opcode byte with enough bytes after it decodes, to its own mode and the first of those bytes. -/
theorem decode_of_length {o : Byte} {m : Mode} {rest : List Byte} (ho : decodeOpcode o = some m)
    (hl : m.operandBytes ≤ rest.length) :
    ∃ i, decode (o :: rest) = .ok (i, rest.drop m.operandBytes) ∧ i.mode = m ∧
      i.operands = rest.take m.operandBytes := by
  obtain ⟨i, hm, hops, ht⟩ := takeOperands_of_length hl
  exact ⟨i, by simp only [decode, ho, ht], hm, hops⟩

/-- The two-stage decoder of spec 30 R55 and the flat match of R54 decide the same, byte by byte. -/
theorem decodeOpcode_eq_modeOfBits : ∀ o : Byte,
    decodeOpcode o = if o &&& 0xE3#8 = 0xA1#8 then Machine.modeOfBits (o.toNat / 4 % 8) else none := by
  decide

/-! ### The decoder and the encoder are inverse to each other -/

theorem decode_encode_append (i : Instr) (rest : List Byte) : decode (encode i ++ rest) = .ok (i, rest) := by
  have hlength := operands_length i
  obtain ⟨j, hj, hmode, hoperands⟩ := decode_of_length (rest := i.operands ++ rest) (decodeOpcode_opcode i.mode)
    (by rw [List.length_append]; omega)
  rw [List.take_left' hlength] at hoperands
  rw [List.drop_left' hlength, Machine.instr_ext hmode hoperands] at hj
  exact hj

/-- Of the three outcomes only the successful one is left, and there the sequence is the opcode byte of the mode, the
operand bytes taken, and the bytes dropped. -/
theorem eq_encode_append_of_decode {bytes rest : List Byte} {i : Instr} (h : decode bytes = .ok (i, rest)) :
    bytes = encode i ++ rest := by
  cases bytes with
  | nil => cases h
  | cons o tail =>
    cases ho : decodeOpcode o with
    | none => rw [decode_of_none ho] at h; cases h
    | some m =>
      obtain hshort | hlong := Nat.lt_or_ge tail.length m.operandBytes
      · rw [decode_of_short ho hshort] at h; cases h
      · obtain ⟨j, hj, rfl, hoperands⟩ := decode_of_length ho hlong
        rw [hj] at h
        cases h
        rw [encode_eq, hoperands, List.cons_append, List.take_append_drop, opcode_of_decodeOpcode ho]

/-- A word of the opcode table that decodes holds an instruction's encoding, and perhaps bytes after it. -/
theorem tableBytes_of_decodeTableWord {nbits w : Nat} {i : Instr} (h : decodeTableWord nbits w = some i) :
    ∃ rest, tableBytes nbits w = encode i ++ rest := by
  rw [decodeTableWord] at h
  cases hdecode : decode (tableBytes nbits w) with
  | error e => rw [hdecode] at h; cases h
  | ok r =>
    obtain ⟨j, rest⟩ := r
    rw [hdecode] at h
    cases h
    exact ⟨rest, eq_encode_append_of_decode hdecode⟩

namespace Machine

/-! ### Running what stands at PC -/

/-- Where memory holds a sequence, it holds the sequence's beginning. -/
theorem bytesFrom_left {m : Memory} {address : Word} {xs ys : List Byte}
    (h : bytesFrom m address (xs ++ ys).length = xs ++ ys) : bytesFrom m address xs.length = xs := by
  induction xs generalizing address with
  | nil => rfl
  | cons x xs ih =>
    obtain ⟨hhead, htail⟩ := List.cons.inj h
    rw [List.length_cons, bytesFrom_succ, hhead, ih htail]

/-- The bytes of a placed word stand at PC, wherever PC is. -/
theorem bytesFrom_withFetchWord {s : State} (hwf : Memory.wf s.mem = true) (nbits w : Nat) :
    bytesFrom (s.withFetchWord nbits w).mem (s.withFetchWord nbits w).pc (tableBytes nbits w).length =
      tableBytes nbits w :=
  bytesFrom_writeBytes hwf s.pc (by simp [tableBytes])

end Machine

end Sys2Proof

/-! The statements about the encoding, settled. -/

namespace Sys2Proof.Machine

/-- Settles O20: the encoding is the opcode byte of the mode and as many operand bytes as the mode takes, and an
instruction is its mode and its operand bytes. -/
theorem decodeOfEncodeIsTheInstruction : Obligations.DecodeOfEncodeIsTheInstruction :=
  fun i rest _ => decode_encode_append i rest

/-- Settles O21, by the three outcomes of decoding. -/
theorem whatDecodesIsAnEncoding : Obligations.WhatDecodesIsAnEncoding :=
  fun _ _ _ => eq_encode_append_of_decode

/-- Settles O22: the three outcomes of decoding, and the opcode map read bit by bit. -/
theorem opcodeByteAloneDecides : Obligations.OpcodeByteAloneDecides :=
  fun o rest => ⟨fun ho => decode_of_none ho rest, fun _ => decode_of_length, fun _ => decode_of_short,
    decodeOpcode_eq_modeOfBits o⟩

/-- Settles O25: the placed bytes stand at PC and begin with the instruction's encoding, so the step fetches it. -/
theorem placedTableWordRunsNext : Obligations.PlacedTableWordRunsNext := by
  intro s nbits w i hwf hdecode
  obtain ⟨rest, hbytes⟩ := tableBytes_of_decodeTableWord hdecode
  have hplaced := bytesFrom_withFetchWord hwf nbits w
  rw [hbytes] at hplaced
  have hfetch : fetch (s.withFetchWord nbits w) = .ok i := fetch_of_encode (bytesFrom_left hplaced)
  rw [step, hfetch]

/-- Settles O23: the first four words are encodings of their instructions with what is left over, and 0xEA is none of
the eight opcode bytes. -/
theorem wordsOfTheOpcodeMapDecode : Obligations.WordsOfTheOpcodeMapDecode :=
  ⟨decode_encode_append (.ldaImmediate 0x45) [], decode_encode_append (.ldaZeroPage 0x00) [],
    decode_encode_append (.ldaAbsoluteX 0xFF 0x20) [], decode_encode_append (.ldaIndirectY 0x44) [0xEA],
    decode_of_none (by decide) [0x00, 0x00]⟩

end Sys2Proof.Machine

/-! SUPPORT. The resolver read from an instruction's own operand bytes: its outputs and reads in model terms, then as
numbers. With them the eight instructions are told once, by the number of their operand bytes. -/

namespace Sys2Proof.Machine

/-! ### What the resolver gives an instruction -/

/-- The resolver's outputs for an instruction (spec 40 R71 to R78), its operand bytes taken from its fields and not
from memory. -/
def resolveInstr (i : Instr) (s : State) : Resolved :=
  match i with
  | .ldaImmediate b => { value := b, advance := 1, listed := 1, penalty := 0 }
  | .ldaZeroPage b => { value := readByte s.mem (eaZeroPage b), advance := 1, listed := 2, penalty := 0 }
  | .ldaZeroPageX b =>
    { value := readByte s.mem (eaZeroPageIndexed b s.x), advance := 1, listed := 3, penalty := 0 }
  | .ldaAbsolute lo hi => { value := readByte s.mem (wordOf hi lo), advance := 2, listed := 3, penalty := 0 }
  | .ldaAbsoluteX lo hi =>
    { value := readByte s.mem (eaIndexed (wordOf hi lo) s.x), advance := 2, listed := 3,
      penalty := penaltyOf (wordOf hi lo) s.x }
  | .ldaAbsoluteY lo hi =>
    { value := readByte s.mem (eaIndexed (wordOf hi lo) s.y), advance := 2, listed := 3,
      penalty := penaltyOf (wordOf hi lo) s.y }
  | .ldaIndirectX b => { value := readByte s.mem (eaIndirectX s.mem b s.x), advance := 1, listed := 5, penalty := 0 }
  | .ldaIndirectY b =>
    { value := readByte s.mem (eaIndexed (baseIndirectY s.mem b) s.y), advance := 1, listed := 4,
      penalty := penaltyOf (baseIndirectY s.mem b) s.y }

/-- The addresses an instruction reads after its own bytes: pointer bytes, then the data byte (spec 20 R37). -/
def dataReads (i : Instr) (s : State) : List Word :=
  match i with
  | .ldaImmediate _ => []
  | .ldaZeroPage b => [eaZeroPage b]
  | .ldaZeroPageX b => [eaZeroPageIndexed b s.x]
  | .ldaAbsolute lo hi => [wordOf hi lo]
  | .ldaAbsoluteX lo hi => [eaIndexed (wordOf hi lo) s.x]
  | .ldaAbsoluteY lo hi => [eaIndexed (wordOf hi lo) s.y]
  | .ldaIndirectX b => [zext16 (b + s.x), zext16 (b + s.x + 1#8), eaIndirectX s.mem b s.x]
  | .ldaIndirectY b => [zext16 b, zext16 (b + 1#8), eaIndexed (baseIndirectY s.mem b) s.y]

/-- `n` consecutive addresses, modulo 65536, from `address` up: those whose bytes `bytesFrom` takes. -/
def addressesFrom (address : Word) : Nat → List Word
  | 0 => []
  | n + 1 => address :: addressesFrom (address + 1#16) n

/-- The operand bytes of `i` stand in memory from `pc1` up. -/
def OperandsAt (m : Memory) (pc1 : Word) (i : Instr) : Prop :=
  bytesFrom m pc1 i.mode.operandBytes = i.operands

theorem exec_eq_resolveInstr (i : Instr) (s : State) :
    exec i s = .next (afterLda i.length (resolveInstr i s).value s) := by cases i <;> rfl

theorem resolveInstr_advance (i : Instr) (s : State) : 1 + (resolveInstr i s).advance = i.length := by
  cases i <;> rfl

/-- The total of each rule of spec 42 is the opcode fetch, the listed cycles and the penalty (spec 40 R86). -/
theorem cyclesUsed_eq_resolveInstr (i : Instr) (s : State) :
    cyclesUsed i s = 1 + (resolveInstr i s).listed + (resolveInstr i s).penalty := by
  cases i
  case ldaAbsoluteX | ldaAbsoluteY | ldaIndirectY =>
    simp only [cyclesUsed, resolveInstr, penaltyOf_eq, lowByte_wordOf, baseIndirectY, readWordZeroPageWrap, add_ite]
  all_goals rfl

theorem resolve_of_operandsAt {s : State} {pc1 : Word} {i : Instr} (h : OperandsAt s.mem pc1 i) :
    resolve i.mode s.mem pc1 s.x s.y = resolveInstr i s := by
  cases i <;> cases h <;> rfl

theorem resolveReads_of_operandsAt {s : State} {pc1 : Word} {i : Instr} (h : OperandsAt s.mem pc1 i) :
    resolveReads i.mode s.mem pc1 s.x s.y = addressesFrom pc1 i.mode.operandBytes ++ dataReads i s := by
  cases i <;> cases h <;> rfl

/-! ### The step where an instruction stands at PC -/

theorem step_of_operandsAt {s : State} {i : Instr} (ho : decodeOpcode (codeByte s 0) = some i.mode)
    (h : OperandsAt s.mem (s.pc + 1#16) i) : step s = exec i s := by
  rw [codeByte_zero] at ho
  rw [step, fetch_of_operands ho h.symm]

/-- `execute` leaves the state that the instruction leaves and reports the instruction's own cycle total. -/
theorem execute_of_operandsAt {s : State} {i : Instr} (ho : decodeOpcode (codeByte s 0) = some i.mode)
    (h : OperandsAt s.mem (s.pc + 1#16) i) :
    execute s = .ok (cyclesUsed i s) (afterLda i.length (resolveInstr i s).value s) := by
  rw [codeByte_zero] at ho
  rw [execute_of_some ho, resolve_of_operandsAt h, cyclesUsed_eq_resolveInstr, resolveInstr_advance]

/-- A step reads the bytes of its instruction in order, then pointer bytes and the data byte (spec 20 R37). -/
theorem stepReads_of_operandsAt {s : State} {i : Instr} (ho : decodeOpcode (codeByte s 0) = some i.mode)
    (h : OperandsAt s.mem (s.pc + 1#16) i) :
    stepReads s = s.pc :: (addressesFrom (s.pc + 1#16) i.mode.operandBytes ++ dataReads i s) := by
  rw [codeByte_zero] at ho
  rw [stepReads_of_some ho, resolveReads_of_operandsAt h]

/-! ### The statement of an instruction, by the number of its operand bytes -/

theorem operandsAt_iff_of_one {m : Memory} {pc1 : Word} {i : Instr} {b : Byte} (hi : i.operands = [b]) :
    OperandsAt m pc1 i ↔ Memory.byteAt m pc1.toNat = b := by
  have hn : i.mode.operandBytes = 1 := by rw [← operands_length, hi]; rfl
  simp [OperandsAt, hi, hn, bytesFrom, readByte]

theorem operandsAt_iff_of_two {m : Memory} {pc1 : Word} {i : Instr} {lo hi : Byte} (h : i.operands = [lo, hi]) :
    OperandsAt m pc1 i ↔ Memory.byteAt m pc1.toNat = lo ∧ Memory.byteAt m ((pc1.toNat + 1) % 65536) = hi := by
  have hn : i.mode.operandBytes = 2 := by rw [← operands_length, h]; rfl
  simp [OperandsAt, h, hn, bytesFrom, readByte, BitVec.toNat_add]

section
variable {s : State} {i : Instr} {value : Byte} {advance listed penalty total : Nat} {reads : List Nat}

/-- What an instruction does, once its resolver outputs and its reads are known. -/
theorem instruction_does (hr : resolveInstr i s = ⟨value, advance, listed, penalty⟩)
    (hn : 1 + listed + penalty = total) (hreads : (dataReads i s).map BitVec.toNat = reads) :
    ∃ t, exec i s = .next t ∧ Loaded s t value i.length ∧ cyclesUsed i s = total ∧
      (∀ pc1 : Word, OperandsAt s.mem pc1 i →
        resolve i.mode s.mem pc1 s.x s.y = ⟨value, advance, listed, penalty⟩) ∧
      (decodeOpcode (codeByte s 0) = some i.mode → OperandsAt s.mem (s.pc + 1#16) i →
        step s = .next t ∧ execute s = .ok total t ∧
        (stepReads s).map BitVec.toNat =
          s.pc.toNat :: ((addressesFrom (s.pc + 1#16) i.mode.operandBytes).map BitVec.toNat ++ reads)) := by
  have hexec := exec_eq_resolveInstr i s
  have hcycles : cyclesUsed i s = total := by rw [cyclesUsed_eq_resolveInstr, hr, hn]
  refine ⟨_, hexec, by rw [hr]; exact loaded_afterLda s value i.length, hcycles, fun pc1 hops => ?_,
    fun ho hops => ⟨?_, ?_, ?_⟩⟩
  · rw [resolve_of_operandsAt hops, hr]
  · rw [step_of_operandsAt ho hops, hexec]
  · rw [execute_of_operandsAt ho hops, hcycles]
  · rw [stepReads_of_operandsAt ho hops, List.map_cons, List.map_append, hreads]

/-- `instruction_does` for one operand byte, the bytes and addresses as numbers. -/
theorem oneOperand_does {b : Byte} (hops : i.operands = [b])
    (hr : resolveInstr i s = ⟨value, advance, listed, penalty⟩) (hn : 1 + listed + penalty = total)
    (hreads : (dataReads i s).map BitVec.toNat = reads) :
    ∃ t, exec i s = .next t ∧ Loaded s t value i.length ∧ cyclesUsed i s = total ∧
      (∀ pc1 : Word, Memory.byteAt s.mem pc1.toNat = b →
        resolve i.mode s.mem pc1 s.x s.y = ⟨value, advance, listed, penalty⟩) ∧
      (decodeOpcode (codeByte s 0) = some i.mode → codeByte s 1 = b →
        step s = .next t ∧ execute s = .ok total t ∧
        (stepReads s).map BitVec.toNat = s.pc.toNat :: (s.pc.toNat + 1) % 65536 :: reads) := by
  obtain ⟨t, hexec, loaded, hcycles, hresolve, hrun⟩ := instruction_does hr hn hreads
  have hone : i.mode.operandBytes = 1 := by rw [← operands_length, hops]; rfl
  simp only [operandsAt_iff_of_one hops, hone, addressesFrom] at hresolve hrun
  refine ⟨t, hexec, loaded, hcycles, hresolve, fun ho hb => ?_⟩
  simp only [BitVec.toNat_add, BitVec.toNat_ofNat] at hrun
  exact hrun ho hb

/-- `instruction_does` for two operand bytes, the bytes and addresses as numbers. -/
theorem twoOperands_do {lo hi : Byte} (hops : i.operands = [lo, hi])
    (hr : resolveInstr i s = ⟨value, advance, listed, penalty⟩) (hn : 1 + listed + penalty = total)
    (hreads : (dataReads i s).map BitVec.toNat = reads) :
    ∃ t, exec i s = .next t ∧ Loaded s t value i.length ∧ cyclesUsed i s = total ∧
      (∀ pc1 : Word, Memory.byteAt s.mem pc1.toNat = lo → Memory.byteAt s.mem ((pc1.toNat + 1) % 65536) = hi →
        resolve i.mode s.mem pc1 s.x s.y = ⟨value, advance, listed, penalty⟩) ∧
      (decodeOpcode (codeByte s 0) = some i.mode → codeByte s 1 = lo → codeByte s 2 = hi →
        step s = .next t ∧ execute s = .ok total t ∧
        (stepReads s).map BitVec.toNat =
          s.pc.toNat :: (s.pc.toNat + 1) % 65536 :: (s.pc.toNat + 2) % 65536 :: reads) := by
  obtain ⟨t, hexec, loaded, hcycles, hresolve, hrun⟩ := instruction_does hr hn hreads
  have htwo : i.mode.operandBytes = 2 := by rw [← operands_length, hops]; rfl
  simp only [operandsAt_iff_of_two hops, htwo, addressesFrom] at hresolve hrun
  refine ⟨t, hexec, loaded, hcycles, fun pc1 hlo hhi => hresolve pc1 ⟨hlo, hhi⟩, fun ho hlo hhi => ?_⟩
  simp only [BitVec.toNat_add, BitVec.toNat_ofNat, Nat.mod_add_mod, Nat.add_assoc] at hrun
  simpa [BitVec.toNat_add, Nat.add_assoc] using hrun ho ⟨hlo, hhi⟩

end

/-! ### Addresses and penalties as numbers -/

/-- The word that the pointer `(b + X) mod 256` holds, in the statements' terms (spec 40 R77). -/
theorem eaIndirectX_toNat (s : State) (b x : Byte) :
    (eaIndirectX s.mem b x).toNat = pointerOf s (b.toNat + x.toNat) := by
  simp [eaIndirectX, readWordZeroPageWrap_toNat, pointerOf, BitVec.toNat_add]

/-- The word that the pointer `b` holds, in the statements' terms (spec 40 R78). -/
theorem baseIndirectY_toNat (s : State) (b : Byte) : (baseIndirectY s.mem b).toNat = pointerOf s b.toNat := by
  rw [baseIndirectY, readWordZeroPageWrap_toNat, pointerOf, Nat.mod_eq_of_lt b.isLt]

/-- A byte at a base plus an index, in the statements' terms. -/
theorem readByte_eaIndexed (s : State) (base : Word) (index : Byte) :
    readByte s.mem (eaIndexed base index) = byteOf s (base.toNat + index.toNat) := by
  rw [readByte, eaIndexed_toNat, byteOf]

theorem penaltyOf_wordOf (hi lo index : Byte) :
    penaltyOf (wordOf hi lo) index = if 0x100 ≤ lo.toNat + index.toNat then 1 else 0 := by
  simp only [penaltyOf_eq, lowByte_wordOf, pageCross_iff]

/-- The penalty on a word in memory is the carry out of the byte at its own address. -/
theorem penaltyOf_readWord (m : Memory) (address : Word) (index : Byte) :
    penaltyOf (readWord m address) index =
      if 0x100 ≤ (Memory.byteAt m address.toNat).toNat + index.toNat then 1 else 0 :=
  penaltyOf_wordOf ..

/-- The penalty on the word a pointer holds is the carry out of the byte at the pointer. -/
theorem penaltyOf_baseIndirectY (m : Memory) (b index : Byte) :
    penaltyOf (baseIndirectY m b) index =
      if 0x100 ≤ (Memory.byteAt m b.toNat).toNat + index.toNat then 1 else 0 := by
  rw [baseIndirectY, readWordZeroPageWrap, penaltyOf_wordOf, readByte_zext16]

/-- The two operand bytes as the number that the statements write. -/
theorem wordOf_toNat_high_first (hi lo : Byte) : (wordOf hi lo).toNat = 256 * hi.toNat + lo.toNat := by
  rw [wordOf_toNat, Nat.add_comm]

end Sys2Proof.Machine

/-! The statements about the addressing resolver, settled. -/

namespace Sys2Proof.Machine

/-- Settles O3: the index is added modulo 256. -/
theorem ldaZeroPageXWrapsInZeroPage : Obligations.LdaZeroPageXWrapsInZeroPage := fun s b =>
  oneOperand_does rfl (by simp [resolveInstr, readByte, eaZeroPageIndexed_toNat]) rfl
    (by simp [dataReads, eaZeroPageIndexed_toNat])

/-- Settles O4: the address is the operand word itself. -/
theorem ldaAbsoluteLoadsFromItsAddress : Obligations.LdaAbsoluteLoadsFromItsAddress := fun s lo hi =>
  twoOperands_do rfl (by rw [resolveInstr, readByte, wordOf_toNat_high_first]) rfl
    (by rw [dataReads, List.map_singleton, wordOf_toNat_high_first])

/-- Settles O5: X is added to the operand word modulo 65536, the penalty is the low byte's carry. -/
theorem ldaAbsoluteXAddsXAndCountsCrossing : Obligations.LdaAbsoluteXAddsXAndCountsCrossing := fun s lo hi =>
  twoOperands_do rfl (by rw [resolveInstr, readByte_eaIndexed, wordOf_toNat_high_first, penaltyOf_wordOf])
    (add_ite ..) (by rw [dataReads, List.map_singleton, eaIndexed_toNat, wordOf_toNat_high_first])

/-- Settles O6: as for Absolute,X, with Y for X. -/
theorem ldaAbsoluteYAddsYAndCountsCrossing : Obligations.LdaAbsoluteYAddsYAndCountsCrossing := fun s lo hi =>
  twoOperands_do rfl (by rw [resolveInstr, readByte_eaIndexed, wordOf_toNat_high_first, penaltyOf_wordOf])
    (add_ite ..) (by rw [dataReads, List.map_singleton, eaIndexed_toNat, wordOf_toNat_high_first])

/-- Settles O7: the pointer and the address after it both wrap in the zero page. -/
theorem ldaIndirectXGoesThroughWrappedPointer : Obligations.LdaIndirectXGoesThroughWrappedPointer := fun s b =>
  oneOperand_does rfl (by rw [resolveInstr, readByte, eaIndirectX_toNat]) rfl
    (by simp [dataReads, eaIndirectX_toNat, BitVec.toNat_add])

/-- Settles O8: Y is added to the word the pointer holds, the penalty is the carry out of that word's low byte. -/
theorem ldaIndirectYAddsYToThePointedWord : Obligations.LdaIndirectYAddsYToThePointedWord := fun s b =>
  oneOperand_does rfl (by rw [resolveInstr, readByte_eaIndexed, baseIndirectY_toNat, penaltyOf_baseIndirectY])
    (add_ite ..) (by simp [dataReads, eaIndexed_toNat, baseIndirectY_toNat, BitVec.toNat_add])

/-- Settles O33: the five modes without penalty one by one, the three others by the low byte of their own base. -/
theorem pageCrossIsTheLowByteCarryOfThreeModes : Obligations.PageCrossIsTheLowByteCarryOfThreeModes := by
  refine ⟨pageCross_iff, fun m pc1 x y => ⟨?_, penaltyOf_readWord m pc1 x, penaltyOf_readWord m pc1 y,
    penaltyOf_baseIndirectY m (readByte m pc1) y⟩⟩
  simp only [List.forall_mem_cons, List.not_mem_nil, false_imp_iff, implies_true, and_true]
  exact ⟨rfl, rfl, rfl, rfl, rfl⟩

/-- Settles O34: the carry out of the low byte's sum is what moves the high byte of the whole sum. -/
theorem pageCrossIffTheHighByteChanges : Obligations.PageCrossIffTheHighByteChanges := by
  intro base i
  have hbase := base.isLt
  have hi := i.isLt
  rw [pageCross_iff, lowByte_toNat]
  omega

/-- Settles O35, mode by mode: five totals are fixed, and the other three add the carry of their own low byte. -/
theorem cycleTotalsFollowTheTable : Obligations.CycleTotalsFollowTheTable := by
  intro s m ho
  have hexec := execute_of_some (by rwa [codeByte_zero] at ho)
  refine ⟨_, hexec, hexec.trans ?_⟩
  congr 1
  rw [codeByte_eq s 1]
  cases m
  case absoluteX => exact (congrArg (4 + ·) (penaltyOf_readWord ..)).trans (add_ite ..)
  case absoluteY => exact (congrArg (4 + ·) (penaltyOf_readWord ..)).trans (add_ite ..)
  case indirectY => exact (congrArg (5 + ·) (penaltyOf_baseIndirectY ..)).trans (add_ite ..)
  all_goals rfl

/-- Settles O1: the value is the operand byte itself. -/
theorem ldaImmediateLoadsItsOperand : Obligations.LdaImmediateLoadsItsOperand := by
  intro s b
  obtain ⟨t, hexec, loaded, hcycles, hresolve, hrun⟩ :=
    oneOperand_does (i := .ldaImmediate b) (s := s) rfl rfl rfl rfl
  exact ⟨t, hexec, loaded, hcycles, hresolve, fun ho => hrun (by rw [ho]; rfl)⟩

/-- Settles O2: the address is the operand byte, zero-extended. -/
theorem ldaZeroPageLoadsFromZeroPage : Obligations.LdaZeroPageLoadsFromZeroPage := by
  intro s b
  obtain ⟨t, hexec, loaded, hcycles, hresolve, hrun⟩ :=
    oneOperand_does (i := .ldaZeroPage b) (s := s) (reads := [b.toNat]) rfl
      (by rw [resolveInstr, eaZeroPage, readByte_zext16]) rfl (by simp [dataReads, eaZeroPage])
  exact ⟨t, hexec, loaded, hcycles, hresolve, fun ho => hrun (by rw [ho]; rfl)⟩

end Sys2Proof.Machine

/-! SUPPORT. The outcomes of a step by its opcode byte, and the bytes at PC as the statements write them. -/

namespace Sys2Proof.Machine

/-- The bytes of a fetch, as the statements write them. -/
theorem bytesFrom_pc_eq_map_codeByte (s : State) (n : Nat) :
    bytesFrom s.mem s.pc n = (List.range n).map (codeByte s) := by
  apply List.ext_getElem?
  intro k
  obtain hk | hk := Nat.lt_or_ge k n
  · rw [bytesFrom_getElem? s.mem s.pc hk, ← codeByte_eq, List.getElem?_map, List.getElem?_range hk, Option.map_some]
  · rw [List.getElem?_eq_none (by rwa [bytesFrom_length]), List.getElem?_eq_none (by simpa using hk)]

/-- `step` where the opcode byte is none of the eight. -/
theorem step_of_none {s : State} (h : decodeOpcode (readByte s.mem s.pc) = none) :
    step s = .fault (.unimplementedOpcode (readByte s.mem s.pc) s.pc (advancePc 1 s)) := by
  rw [step, fetch_of_none h, raiseUnimplementedOpcode_eq]

/-- `step` where the opcode byte selects a mode: it leaves what `execute` leaves, the resolver's value loaded and PC
past the bytes the resolver counts (the two presentations of spec 41 R90). -/
theorem step_of_some {s : State} {m : Mode} (h : decodeOpcode (readByte s.mem s.pc) = some m) :
    step s = .next (afterLda (1 + (resolve m s.mem (s.pc + 1#16) s.x s.y).advance)
      (resolve m s.mem (s.pc + 1#16) s.x s.y).value s) := by
  obtain ⟨i, rfl, hops, hfetch⟩ := fetch_of_some h
  rw [resolve_of_operandsAt hops.symm, resolveInstr_advance, ← exec_eq_resolveInstr, step, hfetch]

/-- The bytes at PC begin with the encoding of what they decode to, so the fetch gives it. -/
theorem fetch_of_decode {s : State} {n : Nat} {i : Instr} {rest : List Byte}
    (h : decode (bytesFrom s.mem s.pc n) = .ok (i, rest)) : fetch s = .ok i := by
  have hbytes := eq_encode_append_of_decode h
  have hn := congrArg List.length hbytes
  rw [bytesFrom_length] at hn
  exact fetch_of_encode (bytesFrom_left (hn ▸ hbytes))

end Sys2Proof.Machine

/-! The statements about the dispatcher and the flags, settled. -/

namespace Sys2Proof.Machine

/-- Settles O15: no step writes memory; a successful one takes Z and N from one byte, which is not both 0 and at least
0x80, and a faulting one leaves the flags alone. -/
theorem everyStepKeepsTheInvariant : Obligations.EveryStepKeepsTheInvariant := by
  refine fun s ⟨hwf, hflags⟩ => ⟨fun t h => ?_, fun opcode faultPc t h => ?_⟩
  · obtain ⟨i, v, -, loaded⟩ := step_next_loaded h
    exact ⟨by rw [loaded.memory.data, hwf], loaded.flags.not_both⟩
  · obtain ⟨-, -, rfl⟩ := step_fault_after h
    exact ⟨hwf, hflags⟩

/-- Settles O10: `step` and `execute` are known in each of the two cases of the opcode byte, and leave the same
state. -/
theorem stepIsTheFiveStageExecute : Obligations.StepIsTheFiveStageExecute := by
  intro s
  rw [codeByte_zero]
  refine ⟨fun ho => ?_, fun m ho => ?_⟩
  · exact ⟨_, step_of_none ho, execute_of_none ho, onlyPcMoved_advancePc s⟩
  · exact ⟨_, step_of_some ho, execute_of_some ho, loaded_afterLda ..⟩

/-- Settles O9: the three bytes are those a fetch of length 3 takes, and they begin with the encoding of `i`. -/
theorem stepRunsTheDecodedInstruction : Obligations.StepRunsTheDecodedInstruction := by
  intro s i rest h
  have hbytes : bytesFrom s.mem s.pc 3 = [codeByte s 0, codeByte s 1, codeByte s 2] :=
    bytesFrom_pc_eq_map_codeByte s 3
  have hfetch : fetch s = .ok i := fetch_of_decode (by rw [hbytes, h])
  exact ⟨wellFormed_all i, hfetch, by rw [step, hfetch]⟩

end Sys2Proof.Machine

/-! The statement that ties the cycle totals of the instructions to `execute`, settled. -/

namespace Sys2Proof.Machine

/-- What a fetched instruction is: its mode is the one the opcode byte selects, its operand bytes stand after it. -/
theorem fetch_ok {s : State} {i : Instr} (h : fetch s = .ok i) :
    decodeOpcode (readByte s.mem s.pc) = some i.mode ∧ OperandsAt s.mem (s.pc + 1#16) i := by
  cases ho : decodeOpcode (readByte s.mem s.pc) with
  | none => rw [fetch_of_none ho] at h; cases h
  | some m =>
    obtain ⟨j, rfl, hops, hfetch⟩ := fetch_of_some ho
    obtain rfl : j = i := Except.ok.inj (hfetch.symm.trans h)
    exact ⟨rfl, hops.symm⟩

/-- Settles O36: a fetched instruction stands at PC, where `exec` loads and `execute` counts by the same resolver
outputs. -/
theorem cyclesOfStepAreThoseOfItsInstruction : Obligations.CyclesOfStepAreThoseOfItsInstruction := by
  intro s i h
  obtain ⟨ho, hops⟩ := fetch_ok h
  rw [← codeByte_zero] at ho
  exact ⟨_, exec_eq_resolveInstr i s, execute_of_operandsAt ho hops⟩

end Sys2Proof.Machine

/-! SUPPORT. Which opcode bytes fault, and what the host can still do in a run that a fault has ended. -/

namespace Sys2Proof

/-- The opcode bytes of the table (spec 30 R54), as numbers. -/
def implementedOpcodes : Finset Nat := (opcodeTable.map fun row => row.1.toNat).toFinset

/-- The bytes that decode to no mode are those in no row of the opcode table. -/
theorem decodeOpcode_ofNat_isNone_iff {n : Nat} (hn : n < 256) :
    (decodeOpcode (BitVec.ofNat 8 n)).isNone = true ↔ n ∉ implementedOpcodes := by
  simp [decodeOpcode, List.lookup_eq_none_iff, implementedOpcodes, opcodeTable, ← BitVec.toNat_inj,
    Nat.mod_eq_of_lt hn]

/-- The unimplemented byte values are the complement of the table's eight, so they are counted by a subtraction. -/
theorem length_unimplementedOpcodes :
    ((List.range 256).filter fun n => (decodeOpcode (BitVec.ofNat 8 n)).isNone).length = 248 := by
  have hcompl : (Finset.range 256).filter (fun n => (decodeOpcode (BitVec.ofNat 8 n)).isNone = true) =
      Finset.range 256 \ implementedOpcodes := by
    ext n
    rw [Finset.mem_filter, Finset.mem_sdiff]
    exact and_congr_right fun hn => decodeOpcode_ofNat_isNone_iff (Finset.mem_range.1 hn)
  rw [← List.toFinset_card_of_nodup (List.nodup_range.filter _), List.toFinset_filter, List.toFinset_range, hcompl,
    Finset.card_sdiff_of_subset (by decide), Finset.card_range]
  rfl

end Sys2Proof

namespace Sys2Proof.Machine

/-- No step is refused: it runs the decoded instruction or faults (spec 60 R120). -/
theorem step_ne_refused (s : State) (r : Refusal) : step s ≠ .refused r := by
  cases ho : decodeOpcode (readByte s.mem s.pc) with
  | none => simp [step_of_none ho]
  | some m => simp [step_of_some ho]

theorem SameRegisters.trans {s t u : State} (h : SameRegisters s t) (h' : SameRegisters t u) : SameRegisters s u :=
  Eq.trans h' h

/-- In an ended run only a write or a snapshot has a meaning, beside what begins a new run; neither of them moves a
register or runs the machine again (spec 60 R125). -/
theorem hostStep_faulted {op : HostOp} {s : State} {σ : Session} {ans : HostAnswer} (hb : op.beginsRun = false)
    (h : hostStep op (.faulted s) = .ok (ans, σ)) :
    op ≠ .execute ∧ ∃ t, σ = .faulted t ∧ SameRegisters s t := by
  cases op with
  | write address bytes => cases h; exact ⟨HostOp.noConfusion, hostWrite address bytes s, rfl, rfl⟩
  | reset => cases hb
  | execute => cases h
  | snapshot => cases h; exact ⟨HostOp.noConfusion, s, rfl, rfl⟩
  | preset r => cases hb

end Sys2Proof.Machine

/-! The statements about the fault and the end of a run, settled. -/

namespace Sys2Proof.Machine

/-- Settles O17: `step` and its reads are known where the opcode byte is none of the eight, and it faults nowhere else. -/
theorem onlyAnUnimplementedOpcodeFaults : Obligations.OnlyAnUnimplementedOpcodeFaults := by
  refine ⟨fun s => ?_, length_unimplementedOpcodes⟩
  rw [codeByte_zero]
  refine ⟨⟨fun ⟨f, hf⟩ => (step_fault hf).1, fun ho => ⟨_, step_of_none ho⟩⟩, fun ho => ?_, step_ne_refused s⟩
  exact ⟨⟨_, _, step_of_none ho⟩, stepReads_of_none ho⟩

/-- Settles O18, from what a faulting step leaves. -/
theorem faultingStepMovesOnlyPc : Obligations.FaultingStepMovesOnlyPc := by
  intro s opcode faultPc t h
  obtain ⟨-, -, rfl⟩ := step_fault_after h
  exact onlyPcMoved_advancePc s

/-- Settles O19, from what a faulting step reports and leaves. -/
theorem faultReportsOpcodeAndItsAddress : Obligations.FaultReportsOpcodeAndItsAddress := by
  intro s opcode faultPc t h
  obtain ⟨rfl, rfl, rfl⟩ := step_fault_after h
  exact ⟨(codeByte_zero s).symm, rfl, (onlyPcMoved_advancePc s).pc⟩

/-- Settles O47: the host is answered what `execute` reports, and the ended run refuses a further step. -/
theorem faultEndsTheRun : Obligations.FaultEndsTheRun := by
  intro s ho
  rw [codeByte_zero] at ho ⊢
  have hfault : hostStep .execute (.running s) =
      .ok (.fault (readByte s.mem s.pc) s.pc, .faulted (advancePc 1 s)) := by
    rw [hostStep, execute_of_none ho, afterExecute]
  exact ⟨advancePc 1 s, hfault, onlyPcMoved_advancePc s, rfl, rfl, fun _ => rfl⟩

/-- Settles O48, by induction on the operations: each that has a meaning leaves the run ended, with the same
registers. -/
theorem endedRunStaysEnded : Obligations.EndedRunStaysEnded := by
  intro ops s σ hb h
  induction ops generalizing s with
  | nil => cases h; exact ⟨List.not_mem_nil, s, rfl, rfl⟩
  | cons op ops ih =>
    obtain ⟨hbOp, hbOps⟩ := List.forall_mem_cons.1 hb
    obtain ⟨ans, τ, hop, hrest⟩ := hostRun_cons.1 h
    obtain ⟨hne, t, rfl, same⟩ := hostStep_faulted hbOp hop
    obtain ⟨hnot, u, hu, same'⟩ := ih t hbOps hrest
    exact ⟨List.not_mem_cons_of_ne_of_not_mem hne.symm hnot, u, hu, same.trans same'⟩

end Sys2Proof.Machine

/-! SUPPORT. What reset takes from memory. -/

namespace Sys2Proof.Machine

/-- PC after reset, as a number: the two bytes of the reset vector, the low byte first (spec 70 R140). -/
theorem resetFrom_pc_toNat (m : Memory) :
    (resetFrom m).pc.toNat = (Memory.byteAt m 0xFFFC).toNat + 256 * (Memory.byteAt m 0xFFFD).toNat :=
  readWord_toNat m Config.resetVector

/-- Reset loads the same registers from memories that agree on the two bytes of the reset vector (spec 70 R140). -/
theorem sameRegisters_resetFrom {m m' : Memory} (hlow : Memory.byteAt m' 0xFFFC = Memory.byteAt m 0xFFFC)
    (hhigh : Memory.byteAt m' 0xFFFD = Memory.byteAt m 0xFFFD) : SameRegisters (resetFrom m) (resetFrom m') := by
  have hpc : readWord m' Config.resetVector = readWord m Config.resetVector := readWord_congr hlow hhigh
  rw [sameRegisters_iff, resetFrom, hpc]
  rfl

/-- A host write moves no register (spec 70 R151). -/
theorem sameRegisters_hostWrite (address : Word) (bytes : List Byte) (s : State) :
    SameRegisters s (hostWrite address bytes s) := rfl

end Sys2Proof.Machine

/-! The statements about reset and the operations of the host, settled. -/

namespace Sys2Proof.Machine

/-- Settles O44: each operation keeps the canonical form, so the whole sequence does. -/
theorem hostOperationsKeepMemoryCanonical : Obligations.HostOperationsKeepMemoryCanonical :=
  ⟨wf_createMemory, fun _ _ _ hwf h =>
    hostRun_keeps (P := fun σ => Memory.wf σ.mem = true) (fun _ _ _ _ _ => wf_hostStep) hwf h⟩

/-- Settles O30: the bytes left are the overlay of the list, byte after byte. -/
theorem hostWriteLandsByteByByte : Obligations.HostWriteLandsByteByByte := fun s address bytes hwf =>
  ⟨congrFun (readByte_writeBytes hwf address bytes), sameRegisters_hostWrite address bytes s⟩

/-- Settles O41: of the bytes on which the two memories agree, reset reads only 0xFFFC and 0xFFFD. -/
theorem resetVectorIsReadOnlyByReset : Obligations.ResetVectorIsReadOnlyByReset := by
  intro s address bytes
  refine ⟨hostWrite address bytes s, rfl, sameRegisters_hostWrite address bytes s, rfl, fun m' same => ?_⟩
  exact sameRegisters_resetFrom (same 0xFFFC (.inr (.inl rfl))) (same 0xFFFD (.inr (.inr rfl)))

/-- Settles O39: the state after reset is written out in the model, PC aside, which is the word at the vector. -/
theorem resetLoadsEveryRegister : Obligations.ResetLoadsEveryRegister := fun σ =>
  ⟨resetFrom σ.mem, rfl, rfl, rfl, rfl, rfl, rfl, rfl, rfl, rfl, rfl, rfl, rfl, rfl, resetFrom_pc_toNat σ.mem, rfl,
    fun _ => sameRegisters_resetFrom⟩

/-- Settles O42: the byte at 0x0000 of a created memory is 0x00, which decodes to no mode. -/
theorem blankMachineFaultsAtOnce : Obligations.BlankMachineFaultsAtOnce := by
  have hopcode : decodeOpcode (readByte State.reset.mem State.reset.pc) = none := by decide
  exact ⟨advancePc 1 State.reset, step_of_none hopcode, onlyPcMoved_advancePc State.reset⟩

/-- Settles O49: the answer holds each register, and the session is the one given. -/
theorem snapshotReadsEveryRegisterAndChangesNothing : Obligations.SnapshotReadsEveryRegisterAndChangesNothing :=
  fun s => ⟨⟨snapshot s, rfl, rfl, rfl, rfl, rfl, rfl, rfl⟩, rfl⟩

/-- Settles O50: every register is taken from the values given, and memory from the state before. -/
theorem presetLoadsTheRegisterFileOnly : Obligations.PresetLoadsTheRegisterFileOnly :=
  fun r s => ⟨rfl, rfl, preset_mem s r⟩

end Sys2Proof.Machine
